-- ==== Sys2Proof/Word.lean ====
section
/-! DEFINITION. The block's word and byte types and the register numbers (00_scope.md R9, 10_state.md R21). -/

namespace Sys2Proof

/-- A 32-bit register word, an unsigned integer below 2^32 (00_scope.md R9). -/
abbrev Word := BitVec 32

/-- A byte of DATA, OBJ or an object image (00_scope.md R9). -/
abbrev Byte := BitVec 8

/-- The number of a general register R0 to R7 (10_state.md R21, 30_encoding.md R61). -/
abbrev Reg := Fin 8

end Sys2Proof
end

