-- ==== Sys2Proof/Machine/Bits.lean ====
section
/-! DEFINITION. Bit slicing, field masks and byte order: the notation of 00_scope.md R10 and R12 and the two field
primitives of 40_bitfield.md R70. -/

namespace Sys2Proof

/-- `mask(w)` = 2^w - 1 (00_scope.md R10). -/
def mask (width : Nat) : Word := BitVec.ofNat 32 (2 ^ width - 1)

/-- `extractField(word, shift, width)` (40_bitfield.md R70). -/
def extractField (word : Word) (shift width : Nat) : Word :=
  (word >>> shift) &&& mask width

/-- `v[hi:lo]` (00_scope.md R10). -/
def slice (v : Word) (hi lo : Nat) : Word := extractField v lo (hi - lo + 1)

/-- `fieldMask(shift, width)` (40_bitfield.md R70). -/
def fieldMask (shift width : Nat) : Word := mask width <<< shift

/-- `insertField(word, shift, width, value)` (40_bitfield.md R70). -/
def insertField (word : Word) (shift width : Nat) (value : Word) : Word :=
  (word &&& ~~~ fieldMask shift width) ||| ((value &&& mask width) <<< shift)

/-- The four bytes of a word, lowest address first: byte `k` is `w[8k+7:8k]` (00_scope.md R12). -/
def wordBytes (w : Word) : List Byte :=
  [w.extractLsb' 0 8, w.extractLsb' 8 8, w.extractLsb' 16 8, w.extractLsb' 24 8]

/-- The word whose bytes, lowest address first, are the arguments (00_scope.md R12). -/
def wordOfBytes (b0 b1 b2 b3 : Byte) : Word := b3 ++ b2 ++ b1 ++ b0

end Sys2Proof
end

