-- ==== Sys2Proof/Syntax.lean ====
section
/-! DEFINITION. The commands of the block, one constructor per row of spec/opcode_table.json (30_encoding.md R58). -/

namespace Sys2Proof

/-- The identifier kind that the X bit of IDENC and IDDEC, and the IDE flag of an object, select
(30_encoding.md R56): 0 standard (11-bit), 1 extended (29-bit). -/
inductive IdKind
  | standard
  | extended
  deriving DecidableEq, Repr

/-- The commands (30_encoding.md R58). Register numbers and the payload-size class are indices, so they carry their
bound; `shift` and `width` are counts, and WellFormed.lean bounds them by their encodings. -/
inductive Instr
  | nop
  | extf (rd rs : Reg) (shift width : Nat)
  | insf (rd rs : Reg) (shift width : Nat)
  | mskupd (rd rs rm : Reg)
  | dlc2len (rd rs : Reg)
  | len2dlc (rd rs : Reg)
  | pls2len (rd rs : Reg)
  | idenc (rd rs : Reg) (x : IdKind)
  | iddec (rd rs : Reg) (x : IdKind)
  | enctx (pls : Fin 8)
  | encrx (pls : Fin 8)
  | enctef
  | dectx
  | decrx
  | dectef
  deriving DecidableEq, Repr

end Sys2Proof
end

