-- ==== Sys2Proof/WellFormed.lean ====
section
/-! DEFINITION. Which commands have an encoding: the bounds of the two counted fields (30_encoding.md R56, R60). -/

namespace Sys2Proof

/-- SHIFT is a 5-bit and WIDTH a 6-bit field of the command word (30_encoding.md R56). A width of 33 to 63 and a
shift + width above 32 are encodable: EXTF and INSF report them when they run (R60). -/
def descriptorEncodable (shift width : Nat) : Bool :=
  decide (shift < 32) && decide (width < 64)

/-- The commands that a command word can carry. -/
def Instr.wf : Instr → Bool
  | .extf _ _ shift width => descriptorEncodable shift width
  | .insf _ _ shift width => descriptorEncodable shift width
  | .nop => true
  | .mskupd _ _ _ => true
  | .dlc2len _ _ => true
  | .len2dlc _ _ => true
  | .pls2len _ _ => true
  | .idenc _ _ _ => true
  | .iddec _ _ _ => true
  | .enctx _ => true
  | .encrx _ => true
  | .enctef => true
  | .dectx => true
  | .decrx => true
  | .dectef => true

end Sys2Proof
end

