-- ==== Sys2Proof/Decode.lean ====
section
/-! DEFINITION. The decoder of command words, total and rejecting by name, the encoder, and the opcode map as a list of
rows (30_encoding.md R55 to R62). -/

namespace Sys2Proof

/-- Why a word is no command; both raise ILLEGAL_CMD (30_encoding.md R59, R62). -/
inductive DecodeError
  /-- The opcode in bits 4:0 is not in the opcode map. -/
  | reservedOpcode
  /-- The opcode is defined and a reserved bit of its format is 1. -/
  | reservedBits
  deriving DecidableEq, Repr

/-- The six formats of a command word (30_encoding.md R57). -/
inductive Format
  | n
  | f
  | r3
  | r2
  | i
  | o
  deriving DecidableEq, Repr

/-- The fixed-bit mask of each format: the opcode bits and the reserved bits (30_encoding.md R57). -/
def Format.fixedMask : Format → Word
  | .n => 0xFFFFFFFF
  | .f => 0xFFC0001F
  | .r3 => 0xFFFFC01F
  | .r2 => 0xFFFFF81F
  | .i => 0xFFFFF01F
  | .o => 0xFFFFFF1F

/-- A row of the opcode map: a word belongs to the command when `word & mask = match` (30_encoding.md R57). -/
structure OpcodeRow where
  mnemonic : String
  pattern  : Word
  format   : Format
  deriving DecidableEq, Repr

/-- `word & mask = match` (30_encoding.md R57). -/
def OpcodeRow.covers (row : OpcodeRow) (c : Word) : Bool :=
  c &&& row.format.fixedMask == row.pattern

/-- The opcode map (30_encoding.md R58). -/
def opcodeMap : List OpcodeRow :=
  [⟨"NOP", 0x00, .n⟩, ⟨"EXTF", 0x01, .f⟩, ⟨"INSF", 0x02, .f⟩, ⟨"MSKUPD", 0x03, .r3⟩, ⟨"DLC2LEN", 0x04, .r2⟩,
    ⟨"LEN2DLC", 0x05, .r2⟩, ⟨"PLS2LEN", 0x06, .r2⟩, ⟨"IDENC", 0x07, .i⟩, ⟨"IDDEC", 0x08, .i⟩] ++
  [⟨"ENCTX", 0x10, .o⟩, ⟨"ENCRX", 0x11, .o⟩, ⟨"ENCTEF", 0x12, .n⟩, ⟨"DECTX", 0x14, .n⟩, ⟨"DECRX", 0x15, .n⟩,
    ⟨"DECTEF", 0x16, .n⟩]

/-! The fields of a command word (30_encoding.md R56, R60, R61). -/

def opOf (c : Word) : Nat := (slice c 4 0).toNat
def rdOf (c : Word) : Reg := Fin.ofNat 8 (slice c 7 5).toNat
def plsOf (c : Word) : Fin 8 := Fin.ofNat 8 (slice c 7 5).toNat
def rsOf (c : Word) : Reg := Fin.ofNat 8 (slice c 10 8).toNat
def rmOf (c : Word) : Reg := Fin.ofNat 8 (slice c 13 11).toNat
def shiftOf (c : Word) : Nat := (slice c 15 11).toNat
def widthOf (c : Word) : Nat := (slice c 21 16).toNat
def xOf (c : Word) : IdKind := if slice c 11 11 = 0 then .standard else .extended

/-- The second test of R59: `i` unless a reserved bit of the format is 1. -/
def accept (fmt : Format) (op : Word) (c : Word) (i : Instr) : Except DecodeError Instr :=
  if c &&& fmt.fixedMask = op then .ok i else .error .reservedBits

/-- Decoding a word written to CMD (30_encoding.md R59). -/
def decode (c : Word) : Except DecodeError Instr :=
  match opOf c with
  | 0x00 => accept .n 0x00 c .nop
  | 0x01 => accept .f 0x01 c (.extf (rdOf c) (rsOf c) (shiftOf c) (widthOf c))
  | 0x02 => accept .f 0x02 c (.insf (rdOf c) (rsOf c) (shiftOf c) (widthOf c))
  | 0x03 => accept .r3 0x03 c (.mskupd (rdOf c) (rsOf c) (rmOf c))
  | 0x04 => accept .r2 0x04 c (.dlc2len (rdOf c) (rsOf c))
  | 0x05 => accept .r2 0x05 c (.len2dlc (rdOf c) (rsOf c))
  | 0x06 => accept .r2 0x06 c (.pls2len (rdOf c) (rsOf c))
  | 0x07 => accept .i 0x07 c (.idenc (rdOf c) (rsOf c) (xOf c))
  | 0x08 => accept .i 0x08 c (.iddec (rdOf c) (rsOf c) (xOf c))
  | 0x10 => accept .o 0x10 c (.enctx (plsOf c))
  | 0x11 => accept .o 0x11 c (.encrx (plsOf c))
  | 0x12 => accept .n 0x12 c .enctef
  | 0x14 => accept .n 0x14 c .dectx
  | 0x15 => accept .n 0x15 c .decrx
  | 0x16 => accept .n 0x16 c .dectef
  | _ => .error .reservedOpcode

/-! The encoder, written from the encoding line of each command's own rule. -/

def regBits (r : Reg) (lo : Nat) : Word := BitVec.ofNat 32 r.val <<< lo
def natBits (n : Nat) (lo : Nat) : Word := BitVec.ofNat 32 n <<< lo

/-- The X bit (30_encoding.md R56). -/
def xBits : IdKind → Word
  | .standard => 0
  | .extended => 1 <<< 11

/-- The command word of a well-formed command (R72 to R75, R83 to R85, R93, R94, R109 to R115). -/
def encode : Instr → Word
  | .nop => 0x00
  | .extf rd rs shift width => 0x01 ||| regBits rd 5 ||| regBits rs 8 ||| natBits shift 11 ||| natBits width 16
  | .insf rd rs shift width => 0x02 ||| regBits rd 5 ||| regBits rs 8 ||| natBits shift 11 ||| natBits width 16
  | .mskupd rd rs rm => 0x03 ||| regBits rd 5 ||| regBits rs 8 ||| regBits rm 11
  | .dlc2len rd rs => 0x04 ||| regBits rd 5 ||| regBits rs 8
  | .len2dlc rd rs => 0x05 ||| regBits rd 5 ||| regBits rs 8
  | .pls2len rd rs => 0x06 ||| regBits rd 5 ||| regBits rs 8
  | .idenc rd rs x => 0x07 ||| regBits rd 5 ||| regBits rs 8 ||| xBits x
  | .iddec rd rs x => 0x08 ||| regBits rd 5 ||| regBits rs 8 ||| xBits x
  | .enctx pls => 0x10 ||| regBits pls 5
  | .encrx pls => 0x11 ||| regBits pls 5
  | .enctef => 0x12
  | .dectx => 0x14
  | .decrx => 0x15
  | .dectef => 0x16

/-- The command word that the opcode table's bit pattern `w` of `nbits` bits stands for: every command is one 32-bit
word (30_encoding.md R55), and the bits above `nbits` are 0. -/
def tableWord (nbits w : Nat) : Word := BitVec.ofNat 32 (w % 2 ^ nbits)

/-- The command that the decoder reads from an opcode-table word; none where it refuses. -/
def decodeTableWord (nbits w : Nat) : Option Instr :=
  match decode (tableWord nbits w) with
  | .ok i => some i
  | .error _ => none

end Sys2Proof
end

