-- ==== Sys2Proof/Config.lean ====
section
/-! DEFINITION. The fixed sizes of the block and the shape of its one layout parameter (00_scope.md R8). The default
layout and the tables stand in Machine/Operands.lean. -/

namespace Sys2Proof.Config

/-- `DATA_BYTES` (00_scope.md R8). -/
abbrev dataBytes : Nat := 64

/-- `OBJ_BYTES` = 12 + 64 (00_scope.md R8). -/
abbrev objBytes : Nat := 76

end Sys2Proof.Config

namespace Sys2Proof

/-- The parameter `OBJ_LAYOUT` (00_scope.md R8, 92_eei_decisions.md D9): the start bit of every field of header
words 0 and 1. The widths are the source's and are not part of the parameter. -/
structure ObjLayout where
  sid    : Nat
  eid    : Nat
  dlc    : Nat
  ide    : Nat
  rtr    : Nat
  brs    : Nat
  fdf    : Nat
  esi    : Nat
  seq    : Nat
  filhit : Nat
  deriving DecidableEq, Repr

namespace ObjLayout

/-- A field as the pair (start bit, width). -/
abbrev Fields := List (Nat × Nat)

/-- The fields of the identifier word (42_identifier.md R90). -/
abbrev idFields (lay : ObjLayout) : Fields := [(lay.sid, 11), (lay.eid, 18)]

/-- The fields that every flags word holds (43_object_codec.md R102, R103). -/
abbrev commonFields (lay : ObjLayout) : Fields :=
  [(lay.dlc, 4), (lay.ide, 1), (lay.rtr, 1), (lay.brs, 1), (lay.fdf, 1), (lay.esi, 1)]

/-- Every field lies inside the word, and no two fields share a bit. -/
abbrev FieldsOk (fs : Fields) : Prop :=
  (∀ f ∈ fs, f.1 + f.2 ≤ 32) ∧ fs.Pairwise (fun f g => f.1 + f.2 ≤ g.1 ∨ g.1 + g.2 ≤ f.1)

/-- A non-overlapping layout (92_eei_decisions.md D9), whichever of the two sequence widths is in use. -/
abbrev NonOverlapping (lay : ObjLayout) : Prop :=
  FieldsOk lay.idFields ∧ FieldsOk (lay.commonFields ++ [(lay.seq, 23)]) ∧
    FieldsOk (lay.commonFields ++ [(lay.filhit, 5)])

end ObjLayout

end Sys2Proof
end

