-- ==== Sys2Proof/Machine/Layout.lean ====
section
/-! DEFINITION. The default of the layout parameter, which the state after reset carries. -/

namespace Sys2Proof.Machine

/-- The default of the parameter OBJ_LAYOUT (42_identifier.md R90; 43_object_codec.md R102, R103). PRESUMED: the
positions are general knowledge of the MCP2517FD/MCP2518FD family (log entry 2). -/
def objLayout : ObjLayout :=
  { sid := 0, eid := 11, dlc := 0, ide := 4, rtr := 5, brs := 6, fdf := 7, esi := 8, seq := 9, filhit := 11 }

end Sys2Proof.Machine
end

