-- ==== Sys2Proof/Machine/State.lean ====
section
/-! DEFINITION. The state of the block (10_state.md R20 to R33), its layout parameter, the host's side of its port, the
ways a step can stop, and the state after reset. -/

namespace Sys2Proof.Machine

/-- A byte buffer: pairs of offset and byte, offsets strictly rising, no byte equal to what an unlisted offset reads as
(Machine/Ops.lean says what that is). -/
abbrev Memory := List Host.Cell

/-- The frame registers F.ID to F.LEN, 32 bits each (10_state.md R26). -/
structure Frame where
  id     : Word
  ide    : Word
  rtr    : Word
  brs    : Word
  fdf    : Word
  esi    : Word
  dlc    : Word
  seq    : Word
  filhit : Word
  ts     : Word
  len    : Word
  deriving DecidableEq, Repr

/-- The names of the frame registers (10_state.md R26). -/
inductive FrameReg
  | id
  | ide
  | rtr
  | brs
  | fdf
  | esi
  | dlc
  | seq
  | filhit
  | ts
  | len
  deriving DecidableEq, Repr

/-- What stands at a mapped offset of the MMIO window (20_memory.md R41). -/
inductive Loc
  | cmd
  | status
  | cfg
  | objlen
  | gpr (r : Reg)
  | frame (f : FrameReg)
  | data (k : Fin 16)
  | obj (k : Fin 19)
  deriving DecidableEq, Repr

/-- The width of a host access in bits (20_memory.md R45). -/
inductive AccessWidth
  | w8
  | w16
  | w32
  deriving DecidableEq, Repr

/-- What the outside can do to the block in one step: a host write, a host read (20_memory.md R40, R45; 30_encoding.md
R65), or the reset input (70_reset_and_hazards.md R150). Offsets are those of the 4096-byte window. -/
inductive HostAccess
  | write (width : AccessWidth) (offset : BitVec 12) (value : Word)
  | read (width : AccessWidth) (offset : BitVec 12)
  | reset
  deriving DecidableEq, Repr

/-- The error names of 60_exceptions.md R131; OK is the absence of an error. -/
inductive Err
  | illegalCmd
  | badFieldSpec
  | fieldRange
  | invalidDlc
  | payloadLen
  | elementOverflow
  | sizeMismatch
  | objlenRange
  deriving DecidableEq, Repr

/-- The three object kinds (43_object_codec.md R100). -/
inductive ObjKind
  | tx
  | rx
  | tef
  deriving DecidableEq, Repr

/-- Nothing stops the block: every error is a code in STATUS and the machine goes on (60_exceptions.md R130, R136), so
there is no fault. -/
inductive Fault
  deriving DecidableEq, Repr

/-- Why a step is not taken. -/
inductive Refusal
  /-- Raised by an arm of exec that has no meaning yet. Safe: nothing is claimed of that command. -/
  | notModelled (mnemonic : String)
  /-- Raised by step on an 8-bit or 16-bit host access, which 20_memory.md R45 does not allow. Safe. -/
  | accessWidth
  /-- Raised by step on an offset that is no multiple of 4, which 20_memory.md R45 does not allow. Safe. -/
  | misalignedOffset
  /-- Raised by step on an offset outside the map of 20_memory.md R41, which R45 does not allow. Safe. -/
  | unmappedOffset
  deriving DecidableEq, Repr

/-- The state. `gpr` to `obj` are the block's, all of it (10_state.md R20, R31). `layout`, `pending` and `replies` are
the model's own: the parameter OBJ_LAYOUT of the block the state is a state of, which no step changes (DESIGN CHOICE,
log entry 10), and the host's side of the port (DESIGN CHOICE, log entry 1). -/
structure State where
  /-- R0 to R7 (10_state.md R21). -/
  gpr     : Vector Word 8
  /-- CMD (10_state.md R22). -/
  cmd     : Word
  /-- STATUS: ERR in bits 3:0, ANYERR in bit 8, the rest reads 0 (10_state.md R23). -/
  status  : Word
  /-- CFG: SEQW in bit 0, the rest reads 0 (10_state.md R24). -/
  cfg     : Word
  /-- OBJLEN (10_state.md R25). -/
  objlen  : Word
  /-- F.ID to F.LEN (10_state.md R26). -/
  frame   : Frame
  /-- DATA (10_state.md R27), offsets 0 to 63. -/
  data    : Memory
  /-- OBJ (10_state.md R28), offsets 0 to 75. -/
  obj     : Memory
  /-- OBJ_LAYOUT, the block's parameter (00_scope.md R8). -/
  layout  : ObjLayout
  /-- The host accesses still to come, first to be performed first (20_memory.md R51). -/
  pending : List HostAccess
  /-- The values that host reads returned, latest first. -/
  replies : List Word
  deriving DecidableEq, Repr

/-- The frame registers after reset (10_state.md R33). -/
def Frame.reset : Frame :=
  { id := 0, ide := 0, rtr := 0, brs := 0, fdf := 0, esi := 0, dlc := 0, seq := 0, filhit := 0, ts := 0, len := 0 }

/-- The machine right after reset (10_state.md R33, 70_reset_and_hazards.md R150): every register 0, every buffer byte
0x00, no host access waiting and none answered, in a block built with the default layout (log entries 2 and 10). -/
def State.reset : State :=
  { gpr := Vector.replicate 8 0, cmd := 0, status := 0, cfg := 0, objlen := 0, frame := Frame.reset,
    data := [], obj := [], layout := objLayout, pending := [], replies := [] }

end Sys2Proof.Machine
end

