-- ==== Sys2Proof/Machine/Flags.lean ====
section
/-! DEFINITION. The fields of STATUS and CFG and every way they change (10_state.md R23, R24, R30; 60_exceptions.md
R130, R131, R133). -/

namespace Sys2Proof.Machine

/-- The code of an error in STATUS.ERR (60_exceptions.md R131). -/
def Err.code : Err → Word
  | .illegalCmd => 1
  | .badFieldSpec => 2
  | .fieldRange => 3
  | .invalidDlc => 4
  | .payloadLen => 5
  | .elementOverflow => 6
  | .sizeMismatch => 7
  | .objlenRange => 8

/-- The bits 3:0 of STATUS, ERR (10_state.md R23). -/
def errBits : Word := fieldMask 0 4

/-- Bit 8 of STATUS, ANYERR (10_state.md R23). -/
def anyErrBit : Word := fieldMask 8 1

/-- Bit 0 of CFG, SEQW (10_state.md R24). -/
def seqwBit : Word := fieldMask 0 1

/-- STATUS.ERR (10_state.md R23). -/
def errOf (status : Word) : Word := extractField status 0 4

/-- STATUS.ANYERR (10_state.md R23). -/
def anyErrOf (status : Word) : Bool := extractField status 8 1 != 0

/-- STATUS after `done`: ERR becomes 0, ANYERR stays (60_exceptions.md R130, R133). -/
def statusDone (status : Word) : Word := status &&& ~~~ errBits

/-- STATUS after `raise e`: ERR becomes the code, ANYERR becomes 1 (60_exceptions.md R130). -/
def statusRaise (status : Word) (e : Err) : Word := (status &&& ~~~ errBits) ||| e.code ||| anyErrBit

/-- STATUS after a host write of `v`: bit 8 of `v` clears ANYERR, nothing else changes (10_state.md R23). -/
def statusHostWrite (status v : Word) : Word :=
  if anyErrOf v then status &&& ~~~ anyErrBit else status

/-- CFG after a host write of `v`: only bit 0 is written (10_state.md R24). -/
def cfgHostWrite (cfg v : Word) : Word := (cfg &&& ~~~ seqwBit) ||| (v &&& seqwBit)

/-- CFG.SEQW (10_state.md R24). -/
def seqwOf (cfg : Word) : Bool := extractField cfg 0 1 != 0

/-- `SEQ_BITS` (43_object_codec.md R105). -/
def seqBits (cfg : Word) : Nat := if seqwOf cfg then 23 else 7

/-- What the reserved bits of STATUS hold, and ERR's range (10_state.md R23: bits 7:4 and 31:9 read as 0, ERR 9 to 15 is
never produced). -/
abbrev statusLegal (status : Word) : Prop :=
  status &&& ~~~ (errBits ||| anyErrBit) = 0 ∧ (errOf status).toNat ≤ 8

/-- What the reserved bits of CFG hold (10_state.md R24: bits 31:1 read as 0). -/
abbrev cfgLegal (cfg : Word) : Prop := cfg &&& ~~~ seqwBit = 0

end Sys2Proof.Machine
end

