-- ==== Sys2Proof/Machine/Ops.lean ====
section
/-! DEFINITION. The named operations: the byte buffers, the registers, and the two ways a command ends, `done` and
`raise` (00_scope.md R11, 60_exceptions.md R130). `raise` is the one shared operation of taking an error; there is no
return from one (60_exceptions.md R136). -/

namespace Sys2Proof.Machine

/-! ### Byte buffers (10_state.md R27, R28; 00_scope.md R11, R12) -/

/-- What an offset that is not listed reads as: the reset contents (10_state.md R33). -/
def emptyByte : Byte := 0x00

/-- The byte at offset `a`. -/
def Memory.read : Memory → Nat → Byte
  | [], _ => emptyByte
  | (b, v) :: rest, a => if b = a then v else Memory.read rest a

/-- No entry for offset `a`. -/
def Memory.erase (m : Memory) (a : Nat) : Memory := m.filter (fun cell => cell.1 != a)

/-- An entry for offset `a` put in front of the first larger offset. -/
def Memory.insert (a : Nat) (v : Byte) : Memory → Memory
  | [] => [(a, v)]
  | cell :: rest => if a < cell.1 then (a, v) :: cell :: rest else cell :: Memory.insert a v rest

/-- `B[a] <- v`: writing the empty byte leaves no entry, so equal buffers are equal lists. -/
def Memory.write (m : Memory) (a : Nat) (v : Byte) : Memory :=
  if v = emptyByte then m.erase a else Memory.insert a v (m.erase a)

/-- The `n` bytes from offset `a` on. -/
def Memory.readBytes (m : Memory) (a : Nat) : Nat → List Byte
  | 0 => []
  | n + 1 => m.read a :: Memory.readBytes m (a + 1) n

/-- The bytes `bs` stored from offset `a` on. -/
def Memory.writeBytes (m : Memory) (a : Nat) : List Byte → Memory
  | [] => m
  | b :: bs => Memory.writeBytes (m.write a b) (a + 1) bs

/-- `MemRead(B, a, 4)`, little-endian (00_scope.md R11, R12). -/
def Memory.readWord (m : Memory) (a : Nat) : Word :=
  wordOfBytes (m.read a) (m.read (a + 1)) (m.read (a + 2)) (m.read (a + 3))

/-- `MemWrite(B, a, 4, w)`, little-endian (00_scope.md R11, R12). -/
def Memory.writeWord (m : Memory) (a : Nat) (w : Word) : Memory := m.writeBytes a (wordBytes w)

/-- The canonical form of a buffer of `size` bytes: offsets strictly rising and below `size`, no empty byte listed. -/
abbrev Memory.wf (size : Nat) (m : Memory) : Prop :=
  m.Pairwise (fun c d => c.1 < d.1) ∧ ∀ cell ∈ m, cell.1 < size ∧ cell.2 ≠ emptyByte

/-! ### General registers (10_state.md R21): none is hardwired -/

/-- `x[r]` (00_scope.md R11). -/
def State.reg (s : State) (r : Reg) : Word := s.gpr[r]

/-- `x[r] <- v` (00_scope.md R11). -/
def State.setReg (s : State) (r : Reg) (v : Word) : State := { s with gpr := s.gpr.set r v }

/-! ### Frame registers (10_state.md R26) -/

/-- `F.NAME` (00_scope.md R11). -/
def Frame.get (f : Frame) : FrameReg → Word
  | .id => f.id
  | .ide => f.ide
  | .rtr => f.rtr
  | .brs => f.brs
  | .fdf => f.fdf
  | .esi => f.esi
  | .dlc => f.dlc
  | .seq => f.seq
  | .filhit => f.filhit
  | .ts => f.ts
  | .len => f.len

/-- `F.NAME <- v` (00_scope.md R11). -/
def Frame.set (f : Frame) (r : FrameReg) (v : Word) : Frame :=
  match r with
  | .id => { f with id := v }
  | .ide => { f with ide := v }
  | .rtr => { f with rtr := v }
  | .brs => { f with brs := v }
  | .fdf => { f with fdf := v }
  | .esi => { f with esi := v }
  | .dlc => { f with dlc := v }
  | .seq => { f with seq := v }
  | .filhit => { f with filhit := v }
  | .ts => { f with ts := v }
  | .len => { f with len := v }

/-! ### How a command ends (00_scope.md R11; 60_exceptions.md R130, R132) -/

/-- `done` (00_scope.md R11): STATUS.ERR becomes 0. -/
def State.done (s : State) : State := { s with status := statusDone s.status }

/-- `raise e` (00_scope.md R11; 60_exceptions.md R130, R132): STATUS.ERR and STATUS.ANYERR, and nothing else. -/
def State.raise (s : State) (e : Err) : State := { s with status := statusRaise s.status e }

/-- Ends a command that started in `s`: on success the state with all its writes and `done`, on an error `raise` from
the state it started in, so that nothing is partially applied (60_exceptions.md R130, R132). -/
def complete (s : State) : Except Err State → Host.Outcome State Fault Refusal
  | .ok t => .next t.done
  | .error e => .next (s.raise e)

/-- `if not p: raise e` in the pseudocode of a command. -/
def require (p : Prop) [Decidable p] (e : Err) : Except Err Unit := if p then .ok () else .error e

end Sys2Proof.Machine
end

