-- ==== Sys2Proof/Machine/Operands.lean ====
section
/-! DEFINITION. The operand tables and checks: field descriptors, DLC_LEN, PLS_LEN, PAD_EMPTY and the header
sizes. -/

namespace Sys2Proof.Machine

/-- A legal field descriptor (40_bitfield.md R71). -/
def descriptorLegal (shift width : Nat) : Bool := decide (width ≤ 32) && decide (shift + width ≤ 32)

/-- The table DLC_LEN (41_dlc_size.md R80). -/
def dlcLenTable : List Nat := [0, 1, 2, 3, 4, 5, 6, 7, 8, 12, 16, 20, 24, 32, 48, 64]

/-- `DLC_LEN[d]` for a data-length code 0 to 15 (41_dlc_size.md R80). Every use has checked d ≤ 15. -/
def dlcLen (d : Nat) : Nat := dlcLenTable.getD d 0

/-- `dlcOf(n)`, none where it fails with INVALID_DLC (41_dlc_size.md R81). -/
def dlcOf (n : Nat) : Option Nat := dlcLenTable.idxOf? n

/-- The table PLS_LEN (41_dlc_size.md R82). -/
def plsLenTable : List Nat := [8, 12, 16, 20, 24, 32, 48, 64]

/-- `PLS_LEN[k]` for a payload-size class 0 to 7 (41_dlc_size.md R82; PRESUMED order of the codes, log entry 3). -/
def plsLen (k : Nat) : Nat := plsLenTable.getD k 0

/-- `PAD_EMPTY`, 0x00 (00_scope.md R8; 43_object_codec.md R107; 92_eei_decisions.md D12). DESIGN CHOICE, log entry 11: R8
fixes it and 93_implementation_defined.md I17 calls it a parameter with this default; the model fixes it, as R8 does. -/
def padEmpty : Byte := 0x00

/-- The header size H of an object kind (43_object_codec.md R100). -/
def headerSize : ObjKind → Nat
  | .tx => 8
  | .rx => 12
  | .tef => 12

/-- The identifier kind that an IDE flag of 0 or 1 selects (42_identifier.md R91). -/
def idKindOf (ide : Word) : IdKind := if ide = 0 then .standard else .extended

end Sys2Proof.Machine
end

