-- ==== Sys2Proof/Machine/Bitfield.lean ====
section
/-! DEFINITION. The bitfield unit: NOP, EXTF, INSF, MSKUPD (40_bitfield.md). -/

namespace Sys2Proof.Machine

/-- NOP (40_bitfield.md R72). -/
def execNop (s : State) : Host.Outcome State Fault Refusal := complete s (.ok s)

/-- The effect of EXTF before it ends (40_bitfield.md R73). -/
def extf (rd rs : Reg) (shift width : Nat) (s : State) : Except Err State := do
  require (descriptorLegal shift width) .badFieldSpec
  return s.setReg rd (extractField (s.reg rs) shift width)

/-- EXTF rd, rs, shift, width (40_bitfield.md R73). -/
def execExtf (rd rs : Reg) (shift width : Nat) (s : State) : Host.Outcome State Fault Refusal :=
  complete s (extf rd rs shift width s)

/-- The effect of INSF before it ends (40_bitfield.md R74). -/
def insf (rd rs : Reg) (shift width : Nat) (s : State) : Except Err State := do
  require (descriptorLegal shift width) .badFieldSpec
  require ((s.reg rs).toNat ≤ (mask width).toNat) .fieldRange
  return s.setReg rd (insertField (s.reg rd) shift width (s.reg rs))

/-- INSF rd, rs, shift, width (40_bitfield.md R74). -/
def execInsf (rd rs : Reg) (shift width : Nat) (s : State) : Host.Outcome State Fault Refusal :=
  complete s (insf rd rs shift width s)

/-- The masked update of `old` by `new` under the mask `m` (40_bitfield.md R75). -/
def maskedUpdate (old new m : Word) : Word := (old &&& ~~~ m) ||| (new &&& m)

/-- MSKUPD rd, rs, rm (40_bitfield.md R75). -/
def execMskupd (rd rs rm : Reg) (s : State) : Host.Outcome State Fault Refusal :=
  complete s (.ok (s.setReg rd (maskedUpdate (s.reg rd) (s.reg rs) (s.reg rm))))

end Sys2Proof.Machine
end

