-- ==== Sys2Proof/Machine/DlcSize.lean ====
section
/-! DEFINITION. The data-length-code and payload-size tables: DLC2LEN, LEN2DLC, PLS2LEN (41_dlc_size.md). -/

namespace Sys2Proof.Machine

/-- The effect of DLC2LEN before it ends (41_dlc_size.md R83). -/
def dlc2len (rd rs : Reg) (s : State) : Except Err State := do
  require ((s.reg rs).toNat ≤ 15) .fieldRange
  return s.setReg rd (BitVec.ofNat 32 (dlcLen (s.reg rs).toNat))

/-- DLC2LEN rd, rs (41_dlc_size.md R83). -/
def execDlc2len (rd rs : Reg) (s : State) : Host.Outcome State Fault Refusal :=
  complete s (dlc2len rd rs s)

/-- The effect of LEN2DLC before it ends (41_dlc_size.md R84). -/
def len2dlc (rd rs : Reg) (s : State) : Except Err State :=
  match dlcOf (s.reg rs).toNat with
  | some d => .ok (s.setReg rd (BitVec.ofNat 32 d))
  | none => .error .invalidDlc

/-- LEN2DLC rd, rs (41_dlc_size.md R84). -/
def execLen2dlc (rd rs : Reg) (s : State) : Host.Outcome State Fault Refusal :=
  complete s (len2dlc rd rs s)

/-- The effect of PLS2LEN before it ends (41_dlc_size.md R85). -/
def pls2len (rd rs : Reg) (s : State) : Except Err State := do
  require ((s.reg rs).toNat ≤ 7) .fieldRange
  return s.setReg rd (BitVec.ofNat 32 (plsLen (s.reg rs).toNat))

/-- PLS2LEN rd, rs (41_dlc_size.md R85). -/
def execPls2len (rd rs : Reg) (s : State) : Host.Outcome State Fault Refusal :=
  complete s (pls2len rd rs s)

end Sys2Proof.Machine
end

