-- ==== Sys2Proof/Machine/Identifier.lean ====
section
/-! DEFINITION. The identifier packer: idEncode, idDecode, IDENC, IDDEC (42_identifier.md). -/

namespace Sys2Proof.Machine

/-- `idEncode(id, ide)` (42_identifier.md R91). -/
def idEncode (lay : ObjLayout) (id : Word) : IdKind → Except Err Word
  | .standard => do
    require (id.toNat ≤ 0x7FF) .fieldRange
    return (id <<< lay.sid) ||| ((0 : Word) <<< lay.eid)
  | .extended => do
    require (id.toNat ≤ 0x1FFFFFFF) .fieldRange
    return (slice id 28 18 <<< lay.sid) ||| (slice id 17 0 <<< lay.eid)

/-- `idDecode(w, ide)` (42_identifier.md R92). -/
def idDecode (lay : ObjLayout) (w : Word) : IdKind → Word
  | .standard => slice w (lay.sid + 10) lay.sid
  | .extended => (slice w (lay.sid + 10) lay.sid <<< 18) ||| slice w (lay.eid + 17) lay.eid

/-- The effect of IDENC before it ends (42_identifier.md R93). -/
def idenc (rd rs : Reg) (x : IdKind) (s : State) : Except Err State := do
  let r ← idEncode s.layout (s.reg rs) x
  return s.setReg rd r

/-- IDENC rd, rs, x (42_identifier.md R93). -/
def execIdenc (rd rs : Reg) (x : IdKind) (s : State) : Host.Outcome State Fault Refusal :=
  complete s (idenc rd rs x s)

/-- IDDEC rd, rs, x (42_identifier.md R94). -/
def execIddec (rd rs : Reg) (x : IdKind) (s : State) : Host.Outcome State Fault Refusal :=
  complete s (.ok (s.setReg rd (idDecode s.layout (s.reg rs) x)))

end Sys2Proof.Machine
end

