-- ==== Sys2Proof/Machine/ObjectCodec.lean ====
section
/-! DEFINITION. The message-object serializer: ENCTX, ENCRX, ENCTEF, DECTX, DECRX, DECTEF (43_object_codec.md). -/

namespace Sys2Proof.Machine

/-! ### Encoding -/

/-- The fields that every flags word carries, each at its place (43_object_codec.md R102, R103, R108). -/
def commonFlags (lay : ObjLayout) (f : Frame) : Word :=
  (f.dlc <<< lay.dlc) ||| (f.ide <<< lay.ide) ||| (f.rtr <<< lay.rtr) ||| (f.brs <<< lay.brs) |||
    (f.fdf <<< lay.fdf) ||| (f.esi <<< lay.esi)

/-- The last step of `encHeader`: the sequence tag of TX and TEF or the filter-hit index of RX, checked and put into
the flags word (43_object_codec.md R108). -/
def encTag (lay : ObjLayout) (cfg : Word) (f : Frame) : ObjKind → Except Err Word
  | .rx => do
    require (f.filhit.toNat ≤ 31) .fieldRange
    return f.filhit <<< lay.filhit
  | .tx => do
    require (f.seq.toNat ≤ (mask (seqBits cfg)).toNat) .fieldRange
    return f.seq <<< lay.seq
  | .tef => do
    require (f.seq.toNat ≤ (mask (seqBits cfg)).toNat) .fieldRange
    return f.seq <<< lay.seq

/-- `encHeader(kind)`: the checked identifier word and flags word, checks in the order of 43_object_codec.md R108. -/
def encHeader (lay : ObjLayout) (kind : ObjKind) (cfg : Word) (f : Frame) : Except Err (Word × Word) := do
  require (f.ide.toNat ≤ 1) .fieldRange
  let w0 ← idEncode lay f.id (idKindOf f.ide)
  require (f.rtr.toNat ≤ 1 ∧ f.brs.toNat ≤ 1 ∧ f.fdf.toNat ≤ 1 ∧ f.esi.toNat ≤ 1) .fieldRange
  require (f.dlc.toNat ≤ 15) .fieldRange
  let tag ← encTag lay cfg f kind
  return (w0, commonFlags lay f ||| tag)

/-- `payloadCheck(P)` (43_object_codec.md R108). -/
def payloadCheck (f : Frame) (p : Nat) : Except Err Unit := do
  require (f.len.toNat ≤ dlcLen f.dlc.toNat) .payloadLen
  require (dlcLen f.dlc.toNat ≤ p) .elementOverflow

/-- The pad byte for `n` actual data bytes (43_object_codec.md R107; for none, log entry 11). -/
def padByte (data : Memory) (n : Nat) : Byte := if n = 0 then padEmpty else data.read (n - 1)

/-- The bytes that `writePayload(H, P)` stores: `n` data bytes, then the pad up to `p` (43_object_codec.md R107). -/
def payloadBytes (data : Memory) (n p : Nat) : List Byte :=
  data.readBytes 0 n ++ List.replicate (p - n) (padByte data n)

/-- The image in OBJ from offset 0 on and its size in OBJLEN; the rest of OBJ stays (43_object_codec.md R106;
10_state.md R25, R28). -/
def State.storeImage (s : State) (image : List Byte) (size : Nat) : State :=
  { s with obj := s.obj.writeBytes 0 image, objlen := BitVec.ofNat 32 size }

/-- The effect of ENCTX before it ends (43_object_codec.md R109). -/
def encTx (pls : Fin 8) (s : State) : Except Err State := do
  let (w0, w1) ← encHeader s.layout .tx s.cfg s.frame
  let p := plsLen pls
  payloadCheck s.frame p
  return s.storeImage (wordBytes w0 ++ wordBytes w1 ++ payloadBytes s.data s.frame.len.toNat p) (headerSize .tx + p)

/-- ENCTX pls (43_object_codec.md R109). -/
def execEnctx (pls : Fin 8) (s : State) : Host.Outcome State Fault Refusal :=
  complete s (encTx pls s)

/-- The effect of ENCRX before it ends (43_object_codec.md R110). -/
def encRx (pls : Fin 8) (s : State) : Except Err State := do
  let (w0, w1) ← encHeader s.layout .rx s.cfg s.frame
  let p := plsLen pls
  payloadCheck s.frame p
  return s.storeImage
    (wordBytes w0 ++ wordBytes w1 ++ wordBytes s.frame.ts ++ payloadBytes s.data s.frame.len.toNat p)
    (headerSize .rx + p)

/-- ENCRX pls (43_object_codec.md R110). -/
def execEncrx (pls : Fin 8) (s : State) : Host.Outcome State Fault Refusal :=
  complete s (encRx pls s)

/-- The effect of ENCTEF before it ends (43_object_codec.md R111). -/
def encTef (s : State) : Except Err State := do
  let (w0, w1) ← encHeader s.layout .tef s.cfg s.frame
  return s.storeImage (wordBytes w0 ++ wordBytes w1 ++ wordBytes s.frame.ts) (headerSize .tef)

/-- ENCTEF (43_object_codec.md R111). -/
def execEnctef (s : State) : Host.Outcome State Fault Refusal := complete s (encTef s)

/-! ### Decoding -/

/-- What `decHeader` returns (43_object_codec.md R112). -/
structure Header where
  w0  : Word
  w1  : Word
  dlc : Word
  len : Nat
  ide : Word
  deriving DecidableEq, Repr

/-- `decHeader(kind, H)`: the length checks and the header parse (43_object_codec.md R112). -/
def decHeader (lay : ObjLayout) (kind : ObjKind) (objlen : Word) (obj : Memory) : Except Err Header := do
  require (objlen.toNat ≤ Config.objBytes) .objlenRange
  require (headerSize kind ≤ objlen.toNat) .sizeMismatch
  let w0 := obj.readWord 0
  let w1 := obj.readWord 4
  let dlc := extractField w1 lay.dlc 4
  let len := dlcLen dlc.toNat
  require (kind = .tef ∨ headerSize kind + len ≤ objlen.toNat) .sizeMismatch
  return { w0 := w0, w1 := w1, dlc := dlc, len := len, ide := extractField w1 lay.ide 1 }

/-- The frame registers that every decoder writes from the header (43_object_codec.md R113 to R115). -/
def Frame.withHeader (f : Frame) (lay : ObjLayout) (h : Header) : Frame :=
  { f with
    ide := h.ide
    id := idDecode lay h.w0 (idKindOf h.ide)
    dlc := h.dlc
    rtr := extractField h.w1 lay.rtr 1
    brs := extractField h.w1 lay.brs 1
    fdf := extractField h.w1 lay.fdf 1
    esi := extractField h.w1 lay.esi 1 }

/-- The payload of the object in OBJ copied to DATA[0 .. L-1]; the rest of DATA stays (43_object_codec.md R113, R114;
10_state.md R27). -/
def State.loadPayload (s : State) (kind : ObjKind) (len : Nat) : State :=
  { s with data := s.data.writeBytes 0 (s.obj.readBytes (headerSize kind) len) }

/-- The effect of DECTX before it ends (43_object_codec.md R113). -/
def decTx (s : State) : Except Err State := do
  let h ← decHeader s.layout .tx s.objlen s.obj
  let frame :=
    { s.frame.withHeader s.layout h with
      seq := extractField h.w1 s.layout.seq (seqBits s.cfg)
      len := BitVec.ofNat 32 h.len }
  return { s.loadPayload .tx h.len with frame := frame }

/-- DECTX (43_object_codec.md R113). -/
def execDectx (s : State) : Host.Outcome State Fault Refusal := complete s (decTx s)

/-- The effect of DECRX before it ends (43_object_codec.md R114). -/
def decRx (s : State) : Except Err State := do
  let h ← decHeader s.layout .rx s.objlen s.obj
  let frame :=
    { s.frame.withHeader s.layout h with
      filhit := extractField h.w1 s.layout.filhit 5
      ts := s.obj.readWord 8
      len := BitVec.ofNat 32 h.len }
  return { s.loadPayload .rx h.len with frame := frame }

/-- DECRX (43_object_codec.md R114). -/
def execDecrx (s : State) : Host.Outcome State Fault Refusal := complete s (decRx s)

/-- The effect of DECTEF before it ends (43_object_codec.md R115). -/
def decTef (s : State) : Except Err State := do
  let h ← decHeader s.layout .tef s.objlen s.obj
  let frame :=
    { s.frame.withHeader s.layout h with
      seq := extractField h.w1 s.layout.seq (seqBits s.cfg)
      ts := s.obj.readWord 8 }
  return { s with frame := frame }

/-- DECTEF (43_object_codec.md R115). -/
def execDectef (s : State) : Host.Outcome State Fault Refusal := complete s (decTef s)

end Sys2Proof.Machine
end

