-- ==== Sys2Proof/Machine/Dispatch.lean ====
section
/-! DEFINITION. The meaning of every command, one arm per constructor (30_encoding.md R58, R59). -/

namespace Sys2Proof.Machine

def exec (i : Instr) (s : State) : Host.Outcome State Fault Refusal :=
  match i with
  | .nop => Sys2Proof.Machine.execNop s
  | .extf rd rs shift width => Sys2Proof.Machine.execExtf rd rs shift width s
  | .insf rd rs shift width => Sys2Proof.Machine.execInsf rd rs shift width s
  | .mskupd rd rs rm => Sys2Proof.Machine.execMskupd rd rs rm s
  | .dlc2len rd rs => Sys2Proof.Machine.execDlc2len rd rs s
  | .len2dlc rd rs => Sys2Proof.Machine.execLen2dlc rd rs s
  | .pls2len rd rs => Sys2Proof.Machine.execPls2len rd rs s
  | .idenc rd rs x => Sys2Proof.Machine.execIdenc rd rs x s
  | .iddec rd rs x => Sys2Proof.Machine.execIddec rd rs x s
  | .enctx pls => Sys2Proof.Machine.execEnctx pls s
  | .encrx pls => Sys2Proof.Machine.execEncrx pls s
  | .enctef => Sys2Proof.Machine.execEnctef s
  | .dectx => Sys2Proof.Machine.execDectx s
  | .decrx => Sys2Proof.Machine.execDecrx s
  | .dectef => Sys2Proof.Machine.execDectef s

end Sys2Proof.Machine
end

