-- ==== Sys2Proof/Machine/HostPort.lean ====
section
/-! DEFINITION. The host port: the MMIO map, which accesses are admitted, and what a read returns and a write stores
(20_memory.md R40 to R47). The command that a write to CMD starts is run by Machine/Step.lean. -/

namespace Sys2Proof.Machine

/-- The offset of a frame register (20_memory.md R41). -/
def FrameReg.offset : FrameReg → Nat
  | .id => 0x040
  | .ide => 0x044
  | .rtr => 0x048
  | .brs => 0x04C
  | .fdf => 0x050
  | .esi => 0x054
  | .dlc => 0x058
  | .seq => 0x05C
  | .filhit => 0x060
  | .ts => 0x064
  | .len => 0x068

/-- The MMIO map, from name to offset (20_memory.md R41). -/
def Loc.offset : Loc → Nat
  | .cmd => 0x000
  | .status => 0x004
  | .cfg => 0x008
  | .objlen => 0x00C
  | .gpr r => 0x010 + 4 * r.val
  | .frame f => f.offset
  | .data k => 0x100 + 4 * k.val
  | .obj k => 0x200 + 4 * k.val

/-- The frame register at an offset. -/
def frameRegAt : Nat → Option FrameReg
  | 0x040 => some .id
  | 0x044 => some .ide
  | 0x048 => some .rtr
  | 0x04C => some .brs
  | 0x050 => some .fdf
  | 0x054 => some .esi
  | 0x058 => some .dlc
  | 0x05C => some .seq
  | 0x060 => some .filhit
  | 0x064 => some .ts
  | 0x068 => some .len
  | _ => none

/-- What is mapped at an offset that is a multiple of 4 (20_memory.md R41). -/
def locAt (n : Nat) : Option Loc :=
  if n = 0x000 then some .cmd
  else if n = 0x004 then some .status
  else if n = 0x008 then some .cfg
  else if n = 0x00C then some .objlen
  else if n < 0x030 then some (.gpr (Fin.ofNat 8 ((n - 0x010) / 4)))
  else if n < 0x100 then (frameRegAt n).map .frame
  else if n < 0x140 then some (.data (Fin.ofNat 16 ((n - 0x100) / 4)))
  else if n < 0x200 then none
  else if n < 0x24C then some (.obj (Fin.ofNat 19 ((n - 0x200) / 4)))
  else none

/-- Admission of a host access (20_memory.md R45): 32 bits wide, at a multiple of 4, at a mapped offset. -/
def mappedAt (width : AccessWidth) (offset : BitVec 12) : Except Refusal Loc :=
  if width ≠ .w32 then .error .accessWidth
  else if offset.toNat % 4 ≠ 0 then .error .misalignedOffset
  else
    match locAt offset.toNat with
    | some loc => .ok loc
    | none => .error .unmappedOffset

/-- What a host read of a mapped offset returns (20_memory.md R44, R46; 10_state.md R21 to R28). -/
def State.readLoc (s : State) : Loc → Word
  | .cmd => s.cmd
  | .status => s.status
  | .cfg => s.cfg
  | .objlen => s.objlen
  | .gpr r => s.reg r
  | .frame f => s.frame.get f
  | .data k => s.data.readWord (4 * k.val)
  | .obj k => s.obj.readWord (4 * k.val)

/-- What a host write of `v` to a mapped offset stores (20_memory.md R44, R46; 10_state.md R21 to R28). For CMD it is
the store alone. -/
def State.writeLoc (s : State) (loc : Loc) (v : Word) : State :=
  match loc with
  | .cmd => { s with cmd := v }
  | .status => { s with status := statusHostWrite s.status v }
  | .cfg => { s with cfg := cfgHostWrite s.cfg v }
  | .objlen => { s with objlen := v }
  | .gpr r => s.setReg r v
  | .frame f => { s with frame := s.frame.set f v }
  | .data k => { s with data := s.data.writeWord (4 * k.val) v }
  | .obj k => { s with obj := s.obj.writeWord (4 * k.val) v }

/-- A host read: the value goes to the host, nothing else changes (20_memory.md R47). -/
def State.hostRead (s : State) (loc : Loc) : State := { s with replies := s.readLoc loc :: s.replies }

/-- The reset input: every piece of the block's state takes its reset value, and no command runs
(70_reset_and_hazards.md R150). The layout is how the block is built and stays (log entry 10); the host's side of the
port is not the block's and stays (log entry 6). -/
def State.resetBlock (s : State) : State :=
  { State.reset with layout := s.layout, pending := s.pending, replies := s.replies }

end Sys2Proof.Machine
end

