-- ==== Sys2Proof/Machine/Access.lean ====
section
/-! DEFINITION. One host access, with the whole of the command that a write to CMD starts (00_scope.md R6, R7;
20_memory.md R46; 30_encoding.md R55, R59). -/

namespace Sys2Proof.Machine

/-- Decodes and executes the command word `c`, which CMD already holds; a word that is no command raises ILLEGAL_CMD
(30_encoding.md R59). -/
def runCommand (c : Word) (s : State) : Host.Outcome State Fault Refusal :=
  match decode c with
  | .ok i => exec i s
  | .error _ => .next (s.raise .illegalCmd)

/-- A host write to a mapped offset: the store and, for CMD, the command (10_state.md R22; 20_memory.md R46, R47). -/
def hostWrite (s : State) (loc : Loc) (v : Word) : Host.Outcome State Fault Refusal :=
  if loc = .cmd then runCommand v (s.writeLoc .cmd v) else .next (s.writeLoc loc v)

/-- One host access, or the reset input. An access that 20_memory.md R45 does not allow is refused. -/
def access (a : HostAccess) (s : State) : Host.Outcome State Fault Refusal :=
  match a with
  | .reset => .next s.resetBlock
  | .read width offset =>
    match mappedAt width offset with
    | .ok loc => .next (s.hostRead loc)
    | .error r => .refused r
  | .write width offset v =>
    match mappedAt width offset with
    | .ok loc => hostWrite s loc v
    | .error r => .refused r

end Sys2Proof.Machine
end

