-- ==== Sys2Proof/Machine/Step.lean ====
section
/-! DEFINITION. One step of the machine: the next host access (00_scope.md R6, R7; 20_memory.md R51). -/

namespace Sys2Proof.Machine

/-- One step: the first pending host access. With none pending nothing happens, since the block does not run between
host accesses (00_scope.md R7; DESIGN CHOICE, log entry 5). -/
def step (s : State) : Host.Outcome State Fault Refusal :=
  match s.pending with
  | [] => .next s
  | a :: rest => access a { s with pending := rest }

/-- `s` with a host write of the opcode-table word `w` to CMD as the next host access, which is where the block takes
its next command from (30_encoding.md R55; DESIGN CHOICE, log entry 1). -/
def State.withFetchWord (s : State) (nbits w : Nat) : State :=
  { s with pending := .write .w32 0x000 (tableWord nbits w) :: s.pending }

end Sys2Proof.Machine
end

