-- ==== Sys2Proof/Safety.lean ====
section
/-! DEFINITION. What holds of the block in every state a run from reset can reach, which host accesses a step takes, and
the other terms in which the statements speak. The status words here are written out in hexadecimal from 10_state.md
R23, not through Machine/Flags.lean. -/

namespace Sys2Proof.Machine

/-- The invariant of the block: both buffers in canonical form and inside their size (10_state.md R27, R28), the
reserved bits of STATUS and CFG at 0, ERR never 9 to 15 (10_state.md R23, R24), and a layout whose fields do not overlap
(92_eei_decisions.md D9). -/
abbrev State.Inv (s : State) : Prop :=
  s.data.wf Config.dataBytes ∧ s.obj.wf Config.objBytes ∧ statusLegal s.status ∧ cfgLegal s.cfg ∧
    s.layout.NonOverlapping

/-- Whether 20_memory.md R45 allows a host access; the reset input is always admitted. -/
def HostAccess.admitted : HostAccess → Bool
  | .reset => true
  | .read width offset => (mappedAt width offset).toOption.isSome
  | .write width offset _ => (mappedAt width offset).toOption.isSome

/-- `t` after `done`: ERR (STATUS bits 3:0) is 0, the rest of `t` as it is (60_exceptions.md R130). -/
def State.endedOk (t : State) : State := { t with status := t.status &&& 0xFFFFFFF0 }

/-- `s` after an error with this code: ERR is the code, ANYERR (STATUS bit 8) is 1, the rest of `s` as it is
(60_exceptions.md R130, R132). -/
def State.endedWith (s : State) (code : Nat) : State :=
  { s with status := (s.status &&& 0xFFFFFFF0) ||| BitVec.ofNat 32 (0x100 + code) }

/-- The frame registers that an object kind carries (10_state.md R32). -/
def ObjKind.carries : ObjKind → FrameReg → Bool
  | _, .id => true
  | _, .ide => true
  | _, .rtr => true
  | _, .brs => true
  | _, .fdf => true
  | _, .esi => true
  | _, .dlc => true
  | k, .seq => k != .rx
  | k, .filhit => k == .rx
  | k, .ts => k != .tx
  | k, .len => k != .tef

/-- The command that encodes an object kind (TEF takes no payload-size class). -/
def ObjKind.encoder (kind : ObjKind) (pls : Fin 8) : Instr :=
  match kind with
  | .tx => .enctx pls
  | .rx => .encrx pls
  | .tef => .enctef

/-- The command that decodes an object kind. -/
def ObjKind.decoder : ObjKind → Instr
  | .tx => .dectx
  | .rx => .decrx
  | .tef => .dectef

/-- The size of the image of an object with payload-size class `pls` (43_object_codec.md R106). -/
def ObjKind.imageSize (kind : ObjKind) (pls : Fin 8) : Nat :=
  match kind with
  | .tx => 8 + plsLen pls
  | .rx => 12 + plsLen pls
  | .tef => 12

/-- The width of the sequence tag: 7 bits when CFG bit 0 is 0 and 23 when it is 1 (43_object_codec.md R105). -/
def seqTagWidth (cfg : Word) : Nat := if cfg.toNat % 2 = 0 then 7 else 23

/-- The header bytes of an object kind (43_object_codec.md R100). -/
def ObjKind.headerBytes : ObjKind → Nat
  | .tx => 8
  | .rx => 12
  | .tef => 12

/-- The first error of an encoder in the order of 60_exceptions.md R134, as its code in R131; 0 when there is
none. -/
def encodeErrorCode (kind : ObjKind) (pls : Fin 8) (s : State) : Nat :=
  let f := s.frame
  if 1 < f.ide.toNat then 3
  else if f.ide.toNat = 0 ∧ 2 ^ 11 ≤ f.id.toNat then 3
  else if f.ide.toNat = 1 ∧ 2 ^ 29 ≤ f.id.toNat then 3
  else if 1 < f.rtr.toNat ∨ 1 < f.brs.toNat ∨ 1 < f.fdf.toNat ∨ 1 < f.esi.toNat then 3
  else if 15 < f.dlc.toNat then 3
  else if kind ≠ .rx ∧ 2 ^ seqTagWidth s.cfg ≤ f.seq.toNat then 3
  else if kind = .rx ∧ 31 < f.filhit.toNat then 3
  else if kind ≠ .tef ∧ dlcLen f.dlc.toNat < f.len.toNat then 5
  else if kind ≠ .tef ∧ plsLen pls < dlcLen f.dlc.toNat then 6
  else 0

/-- The first error of a decoder in the order of 60_exceptions.md R134, as its code in R131; 0 when there is none. The
data-length code stands where the block's layout puts it. -/
def decodeErrorCode (kind : ObjKind) (s : State) : Nat :=
  if 76 < s.objlen.toNat then 8
  else if s.objlen.toNat < kind.headerBytes then 7
  else if kind ≠ .tef ∧ s.objlen.toNat < kind.headerBytes + dlcLen ((s.obj.readWord 4).toNat / 2 ^ s.layout.dlc % 16) then 7
  else 0

/-- Header word 0 as a number: the identifier word of 42_identifier.md R90, R91 for the registers in `f`, with SID and
EID where the layout puts them. -/
def idWordNat (lay : ObjLayout) (f : Frame) : Nat :=
  if f.ide.toNat = 0 then 2 ^ lay.sid * f.id.toNat
  else 2 ^ lay.sid * (f.id.toNat / 2 ^ 18) + 2 ^ lay.eid * (f.id.toNat % 2 ^ 18)

/-- The identifier of the identifier word `w` under the IDE flag `ide` (42_identifier.md R92). -/
def idOfWordNat (lay : ObjLayout) (w ide : Nat) : Nat :=
  if ide = 0 then w / 2 ^ lay.sid % 2 ^ 11 else w / 2 ^ lay.sid % 2 ^ 11 * 2 ^ 18 + w / 2 ^ lay.eid % 2 ^ 18

/-- Header word 1 as a number: the flags word of 43_object_codec.md R102 and R103, with each field where the layout puts
it. -/
def flagsWordNat (lay : ObjLayout) (kind : ObjKind) (f : Frame) : Nat :=
  2 ^ lay.dlc * f.dlc.toNat + 2 ^ lay.ide * f.ide.toNat + 2 ^ lay.rtr * f.rtr.toNat + 2 ^ lay.brs * f.brs.toNat +
    2 ^ lay.fdf * f.fdf.toNat + 2 ^ lay.esi * f.esi.toNat +
    (if kind = .rx then 2 ^ lay.filhit * f.filhit.toNat else 2 ^ lay.seq * f.seq.toNat)

/-- The bits of header word 0 that a field holds; the others are reserved (42_identifier.md R90). -/
def headerMask0 (lay : ObjLayout) : Word := fieldMask lay.sid 11 ||| fieldMask lay.eid 18

/-- The bits of header word 1 that a field holds; the others are reserved (43_object_codec.md R102, R103). -/
def headerMask1 (lay : ObjLayout) (kind : ObjKind) (cfg : Word) : Word :=
  fieldMask lay.dlc 4 ||| fieldMask lay.ide 1 ||| fieldMask lay.rtr 1 ||| fieldMask lay.brs 1 ||| fieldMask lay.fdf 1 |||
    fieldMask lay.esi 1 ||| (if kind = .rx then fieldMask lay.filhit 5 else fieldMask lay.seq (seqTagWidth cfg))

end Sys2Proof.Machine
end

