-- ==== Sys2Proof/Certificates/Slice0/Obligations.lean ====
section
/-! DEFINITION. The statements for the provers. Each docstring names the rules of spec/ that the statement rests on. -/


open Sys2Proof
open Sys2Proof.Machine

/-! ### Encoding -/

/-- Decoding the word of a well-formed command gives it back, for every command and every operand its encoding allows
(30_encoding.md R56 to R61). -/
def Obligations.DecodeOfEncode : Prop :=
  ∀ i : Instr, i.wf = true → decode (encode i) = .ok i

/-- A word that decodes has one meaning: it is the encoding of the well-formed command it decodes to (30_encoding.md
R57, R59). -/
def Obligations.EncodeOfDecode : Prop :=
  ∀ (c : Word) (i : Instr), decode c = .ok i → i.wf = true ∧ encode i = c

/-- A word is a command exactly when one row of the opcode map covers it, `word & mask = match`, and at most one row
does (30_encoding.md R57, R58, R59). -/
def Obligations.DecodeFollowsOpcodeMap : Prop :=
  ∀ c : Word,
    ((∃ i, decode c = .ok i) ↔ ∃ row ∈ opcodeMap, c &&& row.format.fixedMask = row.pattern) ∧
    ∀ row ∈ opcodeMap, ∀ row' ∈ opcodeMap,
      c &&& row.format.fixedMask = row.pattern → c &&& row'.format.fixedMask = row'.pattern → row = row'

/-- Words written out by hand in the rules of spec/ decode to the commands they stand for. -/
def Obligations.RuleExampleWordsDecode : Prop :=
  decode 0x00088221 = .ok (.extf 1 2 16 8) ∧ decode 0x00088422 = .ok (.insf 1 4 16 8) ∧
  decode 0x00002C63 = .ok (.mskupd 3 4 5) ∧ decode 0x000007E4 = .ok (.dlc2len 7 7) ∧
  decode 0x00000A27 = .ok (.idenc 1 2 .extended) ∧ decode 0x00000050 = .ok (.enctx 2) ∧
  decode 0x00000015 = .ok .decrx

/-! ### A step -/

/-- When the host's next access writes `c` to CMD and `c` decodes to `i`, the step stores `c` in CMD and is exec of `i`
(30_encoding.md R55). -/
def Obligations.StepRunsDecodedCommand : Prop :=
  ∀ (s : State) (rest : List HostAccess) (c : Word) (i : Instr),
    s.pending = .write .w32 0x000 c :: rest → decode c = .ok i →
    step s = exec i { s with pending := rest, cmd := c }

/-- A reserved opcode, and a defined opcode with a reserved bit set, end with ILLEGAL_CMD (code 1): CMD holds the word
and nothing but STATUS changes with it (30_encoding.md R62, R59; 60_exceptions.md R132). -/
def Obligations.IllegalWordRaisesIllegalCmd : Prop :=
  ∀ (s : State) (rest : List HostAccess) (c : Word),
    s.pending = .write .w32 0x000 c :: rest →
    (c.toNat % 32 ∈ [0x09, 0x0A, 0x0B, 0x0C, 0x0D, 0x0E, 0x0F, 0x13, 0x17, 0x18, 0x19, 0x1A, 0x1B, 0x1C, 0x1D, 0x1E, 0x1F]
      ∨ ∃ row ∈ opcodeMap, row.pattern.toNat = c.toNat % 32 ∧ c &&& row.format.fixedMask ≠ row.pattern) →
    step s = .next (State.endedWith { s with pending := rest, cmd := c } 1)

/-- With no host access pending a step changes nothing. The model's choice (log entry 5): the block does not run between
host accesses (00_scope.md R7). -/
def Obligations.IdleStepChangesNothing : Prop :=
  ∀ s : State, s.pending = [] → step s = .next s

/-- A step refuses a host access exactly when it is not 32 bits wide, or its offset is no multiple of 4, or nothing is
mapped there (20_memory.md R45, R41). -/
def Obligations.UnadmittedAccessRefused : Prop :=
  ∀ (s : State) (rest : List HostAccess) (width : AccessWidth) (offset : BitVec 12) (v : Word),
    (s.pending = .read width offset :: rest ∨ s.pending = .write width offset v :: rest) →
    ((∃ r, step s = .refused r) ↔
      width ≠ .w32 ∨ offset.toNat % 4 ≠ 0 ∨ ∀ loc : Loc, loc.offset ≠ offset.toNat)

/-- A host read of a mapped offset answers the value that stands there and changes nothing (20_memory.md R46, R47). -/
def Obligations.HostReadChangesNothing : Prop :=
  ∀ (s : State) (rest : List HostAccess) (loc : Loc),
    s.pending = .read .w32 (BitVec.ofNat 12 loc.offset) :: rest →
    step s = .next { s with pending := rest, replies := s.readLoc loc :: s.replies }

/-- A host write to any mapped offset but CMD, STATUS and CFG makes that offset read as the value written and every
other offset as before (20_memory.md R46, R47, R51). -/
def Obligations.HostWriteStoresOnlyItsWord : Prop :=
  ∀ (s : State) (rest : List HostAccess) (loc : Loc) (v : Word),
    s.pending = .write .w32 (BitVec.ofNat 12 loc.offset) v :: rest →
    loc ≠ .cmd → loc ≠ .status → loc ≠ .cfg →
    ∃ t, step s = .next t ∧ t.readLoc loc = v ∧ (∀ other : Loc, other ≠ loc → t.readLoc other = s.readLoc other) ∧
      t.pending = rest ∧ t.replies = s.replies ∧ t.layout = s.layout

/-- A host write to STATUS clears ANYERR when bit 8 of the value is 1 and changes nothing else (10_state.md R23). -/
def Obligations.StatusWriteClearsAnyErr : Prop :=
  ∀ (s : State) (rest : List HostAccess) (v : Word),
    s.pending = .write .w32 0x004 v :: rest →
    step s = .next { s with pending := rest, status := if v.getLsbD 8 then s.status &&& 0xFFFFFEFF else s.status }

/-- A host write to CFG sets SEQW to bit 0 of the value; in states of the invariant CFG then reads as that bit alone
(10_state.md R24). -/
def Obligations.CfgWriteSetsSeqw : Prop :=
  ∀ (s : State) (rest : List HostAccess) (v : Word),
    s.pending = .write .w32 0x008 v :: rest → s.Inv →
    step s = .next { s with pending := rest, cfg := BitVec.ofNat 32 (v.toNat % 2) }

/-- DATA and OBJ words are four bytes, lowest address least significant, on a host read and on a host write
(20_memory.md R44; 00_scope.md R12). -/
def Obligations.BufferWordsAreLittleEndian : Prop :=
  ∀ (s : State) (v : Word),
    (∀ k : Fin 16,
      (s.readLoc (.data k)).toNat = (s.data.read (4 * k)).toNat + 2 ^ 8 * (s.data.read (4 * k + 1)).toNat +
        2 ^ 16 * (s.data.read (4 * k + 2)).toNat + 2 ^ 24 * (s.data.read (4 * k + 3)).toNat ∧
      ∀ a, ((s.writeLoc (.data k) v).data.read a).toNat =
        if 4 * k ≤ a ∧ a < 4 * k + 4 then v.toNat / 2 ^ (8 * (a - 4 * k)) % 2 ^ 8 else (s.data.read a).toNat) ∧
    (∀ k : Fin 19,
      (s.readLoc (.obj k)).toNat = (s.obj.read (4 * k)).toNat + 2 ^ 8 * (s.obj.read (4 * k + 1)).toNat +
        2 ^ 16 * (s.obj.read (4 * k + 2)).toNat + 2 ^ 24 * (s.obj.read (4 * k + 3)).toNat ∧
      ∀ a, ((s.writeLoc (.obj k) v).obj.read a).toNat =
        if 4 * k ≤ a ∧ a < 4 * k + 4 then v.toNat / 2 ^ (8 * (a - 4 * k)) % 2 ^ 8 else (s.obj.read a).toNat)

/-- After reset every register reads 0, every byte of DATA and OBJ reads 0x00, and so does every mapped offset
(10_state.md R33). -/
def Obligations.ResetValuesAreZero : Prop :=
  (∀ loc : Loc, State.reset.readLoc loc = 0) ∧ (∀ a, State.reset.data.read a = 0) ∧ (∀ a, State.reset.obj.read a = 0)

/-- The reset input puts every piece of the block's state to its reset value and runs no command
(70_reset_and_hazards.md R150). The layout stays because it is how the block is built (log entry 10); that the host's
side of the port stays is the model's choice (log entry 6). -/
def Obligations.ResetInputResetsBlock : Prop :=
  ∀ (s : State) (rest : List HostAccess),
    s.pending = .reset :: rest →
    step s = .next { State.reset with layout := s.layout, pending := rest, replies := s.replies }

/-! ### What each command does

`endedOk` and `endedWith` say what becomes of STATUS; every field a right side does not name is unchanged. -/

/-- NOP clears ERR and does nothing else (40_bitfield.md R72). -/
def Obligations.NopClearsErr : Prop :=
  ∀ s : State, exec .nop s = .next s.endedOk

/-- EXTF writes the field (x[rs] / 2^shift) mod 2^width to rd and nothing else; an illegal descriptor is BAD_FIELD_SPEC
(40_bitfield.md R73, R71). -/
def Obligations.ExtfWritesField : Prop :=
  ∀ (rd rs : Reg) (shift width : Nat) (s : State),
    (width ≤ 32 ∧ shift + width ≤ 32 →
      exec (.extf rd rs shift width) s =
        .next (State.endedOk { s with gpr := s.gpr.set rd (BitVec.ofNat 32 (s.gpr[rs].toNat / 2 ^ shift % 2 ^ width)) })) ∧
    (32 < width ∨ 32 < shift + width → exec (.extf rd rs shift width) s = .next (s.endedWith 2))

/-- INSF replaces the bits shift .. shift+width-1 of rd by the value in rs and leaves the other bits; an illegal
descriptor is BAD_FIELD_SPEC, and after that a value of 2^width or more is FIELD_RANGE (40_bitfield.md R74, R71). -/
def Obligations.InsfReplacesField : Prop :=
  ∀ (rd rs : Reg) (shift width : Nat) (s : State),
    (width ≤ 32 ∧ shift + width ≤ 32 ∧ s.gpr[rs].toNat < 2 ^ width →
      ∃ r : Word,
        exec (.insf rd rs shift width) s = .next (State.endedOk { s with gpr := s.gpr.set rd r }) ∧
        ∀ b, b < 32 → r.getLsbD b =
          if shift ≤ b ∧ b < shift + width then s.gpr[rs].getLsbD (b - shift) else s.gpr[rd].getLsbD b) ∧
    (width ≤ 32 ∧ shift + width ≤ 32 ∧ 2 ^ width ≤ s.gpr[rs].toNat →
      exec (.insf rd rs shift width) s = .next (s.endedWith 3)) ∧
    (32 < width ∨ 32 < shift + width → exec (.insf rd rs shift width) s = .next (s.endedWith 2))

/-- MSKUPD takes each bit of rd from rs where the mask bit in rm is 1 and keeps it where it is 0 (40_bitfield.md R75).
-/
def Obligations.MskupdUpdatesMaskedBits : Prop :=
  ∀ (rd rs rm : Reg) (s : State),
    ∃ r : Word,
      exec (.mskupd rd rs rm) s = .next (State.endedOk { s with gpr := s.gpr.set rd r }) ∧
      ∀ b, b < 32 → r.getLsbD b = if s.gpr[rm].getLsbD b then s.gpr[rs].getLsbD b else s.gpr[rd].getLsbD b

/-- DLC2LEN writes the payload length of the data-length code in rs to rd; a code above 15 is FIELD_RANGE
(41_dlc_size.md R83, R80). -/
def Obligations.Dlc2lenWritesLength : Prop :=
  ∀ (rd rs : Reg) (s : State),
    (∀ d len : Nat, (d, len) ∈ [(0, 0), (1, 1), (2, 2), (3, 3), (4, 4), (5, 5), (6, 6), (7, 7), (8, 8), (9, 12), (10, 16),
        (11, 20), (12, 24), (13, 32), (14, 48), (15, 64)] → s.gpr[rs].toNat = d →
      exec (.dlc2len rd rs) s = .next (State.endedOk { s with gpr := s.gpr.set rd (BitVec.ofNat 32 len) })) ∧
    (15 < s.gpr[rs].toNat → exec (.dlc2len rd rs) s = .next (s.endedWith 3))

/-- LEN2DLC writes the data-length code of the byte count in rs to rd; a byte count that no code names is INVALID_DLC
(41_dlc_size.md R84, R81). -/
def Obligations.Len2dlcWritesCode : Prop :=
  ∀ (rd rs : Reg) (s : State),
    (∀ d len : Nat, (d, len) ∈ [(0, 0), (1, 1), (2, 2), (3, 3), (4, 4), (5, 5), (6, 6), (7, 7), (8, 8), (9, 12), (10, 16),
        (11, 20), (12, 24), (13, 32), (14, 48), (15, 64)] → s.gpr[rs].toNat = len →
      exec (.len2dlc rd rs) s = .next (State.endedOk { s with gpr := s.gpr.set rd (BitVec.ofNat 32 d) })) ∧
    (s.gpr[rs].toNat ∉ [0, 1, 2, 3, 4, 5, 6, 7, 8, 12, 16, 20, 24, 32, 48, 64] →
      exec (.len2dlc rd rs) s = .next (s.endedWith 4))

/-- PLS2LEN writes the element payload size of the class in rs to rd; a class above 7 is FIELD_RANGE (41_dlc_size.md
R85, R82). -/
def Obligations.Pls2lenWritesSize : Prop :=
  ∀ (rd rs : Reg) (s : State),
    (∀ k p : Nat, (k, p) ∈ [(0, 8), (1, 12), (2, 16), (3, 20), (4, 24), (5, 32), (6, 48), (7, 64)] → s.gpr[rs].toNat = k →
      exec (.pls2len rd rs) s = .next (State.endedOk { s with gpr := s.gpr.set rd (BitVec.ofNat 32 p) })) ∧
    (7 < s.gpr[rs].toNat → exec (.pls2len rd rs) s = .next (s.endedWith 3))

/-- IDENC writes the identifier word to rd: for X = 0 the identifier in SID, and for X = 1 its upper 11 bits in SID and
its lower 18 bits in EID; an identifier that does not fit is FIELD_RANGE (42_identifier.md R91, R93). SID and EID stand
where the block's layout puts them, whichever non-overlapping layout that is (92_eei_decisions.md D9). -/
def Obligations.IdencWritesIdentifierWord : Prop :=
  ∀ (rd rs : Reg) (s : State),
    (s.gpr[rs].toNat < 2 ^ 11 → s.layout.NonOverlapping →
      exec (.idenc rd rs .standard) s = .next (State.endedOk { s with
        gpr := s.gpr.set rd (BitVec.ofNat 32 (2 ^ s.layout.sid * s.gpr[rs].toNat)) })) ∧
    (2 ^ 11 ≤ s.gpr[rs].toNat → exec (.idenc rd rs .standard) s = .next (s.endedWith 3)) ∧
    (s.gpr[rs].toNat < 2 ^ 29 → s.layout.NonOverlapping →
      exec (.idenc rd rs .extended) s = .next (State.endedOk { s with
        gpr := s.gpr.set rd (BitVec.ofNat 32
          (2 ^ s.layout.sid * (s.gpr[rs].toNat / 2 ^ 18) + 2 ^ s.layout.eid * (s.gpr[rs].toNat % 2 ^ 18))) })) ∧
    (2 ^ 29 ≤ s.gpr[rs].toNat → exec (.idenc rd rs .extended) s = .next (s.endedWith 3))

/-- IDDEC writes the identifier of the identifier word in rs to rd, and never fails (42_identifier.md R92, R94). SID and
EID stand where the block's layout puts them, whichever layout that is. -/
def Obligations.IddecWritesIdentifier : Prop :=
  ∀ (rd rs : Reg) (s : State),
    exec (.iddec rd rs .standard) s =
      .next (State.endedOk { s with gpr := s.gpr.set rd (BitVec.ofNat 32 (s.gpr[rs].toNat / 2 ^ s.layout.sid % 2 ^ 11)) }) ∧
    exec (.iddec rd rs .extended) s =
      .next (State.endedOk { s with
        gpr := s.gpr.set rd (BitVec.ofNat 32
          (s.gpr[rs].toNat / 2 ^ s.layout.sid % 2 ^ 11 * 2 ^ 18 + s.gpr[rs].toNat / 2 ^ s.layout.eid % 2 ^ 18)) })

/-- ENCTX with legal frame registers completes: OBJ holds the identifier word, the flags word, the data bytes and the
pad, every byte beyond the image is unchanged, OBJLEN is 8 + P, and nothing else but ERR changes (43_object_codec.md
R109, R106, R107). The fields stand where the block's layout puts them, whichever non-overlapping layout that is
(92_eei_decisions.md D9). The pad of an empty payload is 0x00,
as R107 writes it (log entry 11 on 93_implementation_defined.md I17). -/
def Obligations.EnctxBuildsImage : Prop :=
  ∀ (pls : Fin 8) (s : State), encodeErrorCode .tx pls s = 0 → s.layout.NonOverlapping →
    ∃ obj : Memory,
      exec (.enctx pls) s = .next (State.endedOk { s with obj := obj, objlen := BitVec.ofNat 32 (8 + plsLen pls) }) ∧
      (obj.readWord 0).toNat = idWordNat s.layout s.frame ∧ (obj.readWord 4).toNat = flagsWordNat s.layout .tx s.frame ∧
      (∀ a, a < s.frame.len.toNat → obj.read (8 + a) = s.data.read a) ∧
      (∀ a, s.frame.len.toNat ≤ a → a < plsLen pls →
        obj.read (8 + a) = if s.frame.len = 0 then 0 else s.data.read (s.frame.len.toNat - 1)) ∧
      (∀ a, 8 + plsLen pls ≤ a → obj.read a = s.obj.read a)

/-- ENCRX with legal frame registers completes: OBJ holds the identifier word, the flags word, the timestamp, the data
bytes and the pad, every byte beyond the image is unchanged, OBJLEN is 12 + P, and nothing else but ERR changes
(43_object_codec.md R110, R106, R107). The fields stand where the block's layout puts them, whichever non-overlapping
layout that is (92_eei_decisions.md D9). The pad of an empty payload is 0x00,
as R107 writes it (log entry 11 on 93_implementation_defined.md I17). -/
def Obligations.EncrxBuildsImage : Prop :=
  ∀ (pls : Fin 8) (s : State), encodeErrorCode .rx pls s = 0 → s.layout.NonOverlapping →
    ∃ obj : Memory,
      exec (.encrx pls) s = .next (State.endedOk { s with obj := obj, objlen := BitVec.ofNat 32 (12 + plsLen pls) }) ∧
      (obj.readWord 0).toNat = idWordNat s.layout s.frame ∧ (obj.readWord 4).toNat = flagsWordNat s.layout .rx s.frame ∧
      obj.readWord 8 = s.frame.ts ∧
      (∀ a, a < s.frame.len.toNat → obj.read (12 + a) = s.data.read a) ∧
      (∀ a, s.frame.len.toNat ≤ a → a < plsLen pls →
        obj.read (12 + a) = if s.frame.len = 0 then 0 else s.data.read (s.frame.len.toNat - 1)) ∧
      (∀ a, 12 + plsLen pls ≤ a → obj.read a = s.obj.read a)

/-- ENCTEF with legal frame registers completes: OBJ holds the identifier word, the flags word and the timestamp, every
byte from 12 on is unchanged, OBJLEN is 12, and nothing else but ERR changes (43_object_codec.md R111, R106). The fields
stand where the block's layout puts them, whichever non-overlapping layout that is (92_eei_decisions.md D9). -/
def Obligations.EnctefBuildsImage : Prop :=
  ∀ (s : State), encodeErrorCode .tef 0 s = 0 → s.layout.NonOverlapping →
    ∃ obj : Memory,
      exec .enctef s = .next (State.endedOk { s with obj := obj, objlen := 12 }) ∧
      (obj.readWord 0).toNat = idWordNat s.layout s.frame ∧ (obj.readWord 4).toNat = flagsWordNat s.layout .tef s.frame ∧
      obj.readWord 8 = s.frame.ts ∧ (∀ a, 12 ≤ a → obj.read a = s.obj.read a)

/-- DECTX of an image that is long enough completes with the frame registers the header words give, DATA[0 .. L-1] the
payload and the rest of DATA unchanged, and nothing else but ERR changes, whatever the field values (43_object_codec.md
R113, R117). The fields stand where the block's layout puts them, whichever layout that is. -/
def Obligations.DectxReadsObject : Prop :=
  ∀ (s : State) (w0 w1 len : Nat), decodeErrorCode .tx s = 0 →
    w0 = (s.obj.readWord 0).toNat → w1 = (s.obj.readWord 4).toNat → len = dlcLen (w1 / 2 ^ s.layout.dlc % 16) →
    ∃ data : Memory,
      exec .dectx s = .next (State.endedOk { s with data := data, frame := { s.frame with
          id := BitVec.ofNat 32 (idOfWordNat s.layout w0 (w1 / 2 ^ s.layout.ide % 2)),
          ide := BitVec.ofNat 32 (w1 / 2 ^ s.layout.ide % 2),
          rtr := BitVec.ofNat 32 (w1 / 2 ^ s.layout.rtr % 2), brs := BitVec.ofNat 32 (w1 / 2 ^ s.layout.brs % 2),
          fdf := BitVec.ofNat 32 (w1 / 2 ^ s.layout.fdf % 2), esi := BitVec.ofNat 32 (w1 / 2 ^ s.layout.esi % 2),
          dlc := BitVec.ofNat 32 (w1 / 2 ^ s.layout.dlc % 16), len := BitVec.ofNat 32 len,
          seq := BitVec.ofNat 32 (w1 / 2 ^ s.layout.seq % 2 ^ seqTagWidth s.cfg) } }) ∧
      (∀ a, a < len → data.read a = s.obj.read (8 + a)) ∧ (∀ a, len ≤ a → data.read a = s.data.read a)

/-- DECRX of an image that is long enough completes with the frame registers the header words give, DATA[0 .. L-1] the
payload and the rest of DATA unchanged, and nothing else but ERR changes, whatever the field values (43_object_codec.md
R114, R117). The fields stand where the block's layout puts them, whichever layout that is. -/
def Obligations.DecrxReadsObject : Prop :=
  ∀ (s : State) (w0 w1 len : Nat), decodeErrorCode .rx s = 0 →
    w0 = (s.obj.readWord 0).toNat → w1 = (s.obj.readWord 4).toNat → len = dlcLen (w1 / 2 ^ s.layout.dlc % 16) →
    ∃ data : Memory,
      exec .decrx s = .next (State.endedOk { s with data := data, frame := { s.frame with
          id := BitVec.ofNat 32 (idOfWordNat s.layout w0 (w1 / 2 ^ s.layout.ide % 2)),
          ide := BitVec.ofNat 32 (w1 / 2 ^ s.layout.ide % 2),
          rtr := BitVec.ofNat 32 (w1 / 2 ^ s.layout.rtr % 2), brs := BitVec.ofNat 32 (w1 / 2 ^ s.layout.brs % 2),
          fdf := BitVec.ofNat 32 (w1 / 2 ^ s.layout.fdf % 2), esi := BitVec.ofNat 32 (w1 / 2 ^ s.layout.esi % 2),
          dlc := BitVec.ofNat 32 (w1 / 2 ^ s.layout.dlc % 16), len := BitVec.ofNat 32 len,
          filhit := BitVec.ofNat 32 (w1 / 2 ^ s.layout.filhit % 2 ^ 5), ts := s.obj.readWord 8 } }) ∧
      (∀ a, a < len → data.read a = s.obj.read (12 + a)) ∧ (∀ a, len ≤ a → data.read a = s.data.read a)

/-- DECTEF of an image of 12 to 76 bytes completes with the frame registers the header words give, and nothing else but
ERR changes, whatever the field values (43_object_codec.md R115, R117). The fields stand where the block's layout puts
them, whichever layout that is. -/
def Obligations.DectefReadsObject : Prop :=
  ∀ (s : State) (w0 w1 : Nat), decodeErrorCode .tef s = 0 →
    w0 = (s.obj.readWord 0).toNat → w1 = (s.obj.readWord 4).toNat →
    exec .dectef s = .next (State.endedOk { s with frame := { s.frame with
        id := BitVec.ofNat 32 (idOfWordNat s.layout w0 (w1 / 2 ^ s.layout.ide % 2)),
        ide := BitVec.ofNat 32 (w1 / 2 ^ s.layout.ide % 2),
        rtr := BitVec.ofNat 32 (w1 / 2 ^ s.layout.rtr % 2), brs := BitVec.ofNat 32 (w1 / 2 ^ s.layout.brs % 2),
        fdf := BitVec.ofNat 32 (w1 / 2 ^ s.layout.fdf % 2), esi := BitVec.ofNat 32 (w1 / 2 ^ s.layout.esi % 2),
        dlc := BitVec.ofNat 32 (w1 / 2 ^ s.layout.dlc % 16), ts := s.obj.readWord 8,
        seq := BitVec.ofNat 32 (w1 / 2 ^ s.layout.seq % 2 ^ seqTagWidth s.cfg) } })

/-! ### Errors -/

/-- An encoder with illegal operands reports the first error in the order of the rules and changes nothing but STATUS
(60_exceptions.md R134, R131, R132; 43_object_codec.md R108). -/
def Obligations.EncoderReportsFirstError : Prop :=
  ∀ (kind : ObjKind) (pls : Fin 8) (s : State), encodeErrorCode kind pls s ≠ 0 →
    exec (kind.encoder pls) s = .next (s.endedWith (encodeErrorCode kind pls s))

/-- A decoder with an illegal OBJLEN reports the first error in the order of the rules and changes nothing but STATUS
(60_exceptions.md R134, R131, R132; 43_object_codec.md R112). The data-length code that the second size check reads
stands where the block's layout puts it. -/
def Obligations.DecoderReportsFirstError : Prop :=
  ∀ (kind : ObjKind) (s : State), decodeErrorCode kind s ≠ 0 →
    exec kind.decoder s = .next (s.endedWith (decodeErrorCode kind s))

/-- Every command ends in exactly one of two ways: with `done`, ERR 0 and the rest of STATUS kept, or with `raise E`,
ERR the code of E, ANYERR 1, and nothing but STATUS written. The machine always goes on (60_exceptions.md R130, R132,
R136). -/
def Obligations.CommandEndsDoneOrRaise : Prop :=
  ∀ (i : Instr) (s : State), ∃ t, exec i s = .next t ∧
    ((errOf t.status = 0 ∧ t.status = s.status &&& 0xFFFFFFF0) ∨
      ∃ e : Err, errOf t.status = e.code ∧ e.code ≠ 0 ∧ anyErrOf t.status = true ∧
        t = { s with status := (s.status &&& 0xFFFFFFF0) ||| e.code ||| 0x100 })

/-- A command that ends with an error writes STATUS and nothing else (60_exceptions.md R132). -/
def Obligations.ErrorIsNeverPartiallyApplied : Prop :=
  ∀ (i : Instr) (s t : State), exec i s = .next t → errOf t.status ≠ 0 → t = { s with status := t.status }

/-- ANYERR is sticky: a step that is not the reset input and not a STATUS write with bit 8 set never clears it; a
command that fails sets it, and one that succeeds leaves it; a STATUS write with bit 8 set clears it. ERR changes only
by a command or the reset input (60_exceptions.md R133). -/
def Obligations.AnyErrIsSticky : Prop :=
  (∀ s t : State, step s = .next t → anyErrOf s.status = true → s.pending.head? ≠ some .reset →
    (∀ v, s.pending.head? = some (.write .w32 0x004 v) → v.getLsbD 8 = false) → anyErrOf t.status = true) ∧
  (∀ (i : Instr) (s t : State), exec i s = .next t →
    anyErrOf t.status = (anyErrOf s.status || (errOf t.status != 0))) ∧
  (∀ (s : State) (rest : List HostAccess) (v : Word), s.pending = .write .w32 0x004 v :: rest → v.getLsbD 8 = true →
    ∃ t, step s = .next t ∧ anyErrOf t.status = false) ∧
  (∀ s t : State, step s = .next t → s.pending.head? ≠ some .reset →
    (∀ v, s.pending.head? ≠ some (.write .w32 0x000 v)) → errOf t.status = errOf s.status)

/-! ### Frames -/

/-- The commands NOP, EXTF, INSF, MSKUPD, DLC2LEN, LEN2DLC, PLS2LEN, IDENC and IDDEC change at most the register rd and
the ERR and ANYERR bits of STATUS: every other register, every frame register, CMD, CFG, OBJLEN, every byte of DATA and
OBJ, the layout and the host's side of the port are unchanged (10_state.md R21; 40_bitfield.md R72 to R75;
41_dlc_size.md R83 to R85; 42_identifier.md R93, R94). -/
def Obligations.RegisterCommandFrame : Prop :=
  ∀ (rd rs rm : Reg) (shift width : Nat) (x : IdKind) (i : Instr) (s t : State),
    i ∈ [.extf rd rs shift width, .insf rd rs shift width, .mskupd rd rs rm, .dlc2len rd rs, .len2dlc rd rs, .pls2len rd rs,
      .idenc rd rs x, .iddec rd rs x] ∨ i = .nop →
    exec i s = .next t →
    (∀ r, r ≠ rd ∨ i = .nop → t.reg r = s.reg r) ∧ t.cmd = s.cmd ∧ t.cfg = s.cfg ∧ t.objlen = s.objlen ∧
      (∀ f, t.frame.get f = s.frame.get f) ∧ (∀ a, t.data.read a = s.data.read a) ∧ (∀ a, t.obj.read a = s.obj.read a) ∧
      t.layout = s.layout ∧ t.pending = s.pending ∧ t.replies = s.replies ∧ t.status &&& 0xFFFFFEF0 = s.status &&& 0xFFFFFEF0

/-- The encoders change at most OBJLEN, the ERR and ANYERR bits of STATUS and the image's bytes of OBJ, which lie from
offset 0 on: every register, every frame register, CMD, CFG, every byte of DATA, every byte of OBJ outside the image,
the layout and the host's side of the port are unchanged (43_object_codec.md R109, R110, R111; 10_state.md R28). -/
def Obligations.EncoderFrame : Prop :=
  ∀ (kind : ObjKind) (pls : Fin 8) (s t : State), exec (kind.encoder pls) s = .next t →
    (∀ r, t.reg r = s.reg r) ∧ t.cmd = s.cmd ∧ t.cfg = s.cfg ∧ (∀ f, t.frame.get f = s.frame.get f) ∧
      (∀ a, t.data.read a = s.data.read a) ∧ (∀ a, kind.imageSize pls ≤ a → t.obj.read a = s.obj.read a) ∧
      t.layout = s.layout ∧ t.pending = s.pending ∧ t.replies = s.replies ∧ t.status &&& 0xFFFFFEF0 = s.status &&& 0xFFFFFEF0

/-- The decoders change at most the frame registers their object kind carries, the payload's bytes of DATA (none for
TEF) and the ERR and ANYERR bits of STATUS: every register, every other frame register, CMD, CFG, OBJLEN, every byte of
OBJ, every byte of DATA from L on, the layout and the host's side of the port are unchanged (43_object_codec.md R113,
R114, R115; 10_state.md R27, R28, R32). L is the length of the data-length code, which stands where the block's layout
puts it. -/
def Obligations.DecoderFrame : Prop :=
  ∀ (kind : ObjKind) (s t : State), exec kind.decoder s = .next t →
    (∀ r, t.reg r = s.reg r) ∧ t.cmd = s.cmd ∧ t.cfg = s.cfg ∧ t.objlen = s.objlen ∧
      (∀ f, kind.carries f = false → t.frame.get f = s.frame.get f) ∧ (∀ a, t.obj.read a = s.obj.read a) ∧
      (∀ a, kind = .tef ∨ dlcLen ((s.obj.readWord 4).toNat / 2 ^ s.layout.dlc % 16) ≤ a → t.data.read a = s.data.read a) ∧
      t.layout = s.layout ∧ t.pending = s.pending ∧ t.replies = s.replies ∧ t.status &&& 0xFFFFFEF0 = s.status &&& 0xFFFFFEF0

/-- No command writes CMD, CFG, the layout or the host's side of the port, and only the encoders write OBJ and OBJLEN
(10_state.md R22, R24, R25, R28). -/
def Obligations.NoCommandWritesCmdOrCfg : Prop :=
  ∀ (i : Instr) (s t : State), exec i s = .next t →
    t.cmd = s.cmd ∧ t.cfg = s.cfg ∧ t.layout = s.layout ∧ t.pending = s.pending ∧ t.replies = s.replies ∧
      ((∀ kind pls, i ≠ ObjKind.encoder kind pls) → t.obj = s.obj ∧ t.objlen = s.objlen)

/-! ### Laws of the rules -/

/-- Insert then extract with one legal descriptor gives the value back and leaves every bit outside the field, for the
two primitives and for the commands INSF and EXTF (40_bitfield.md R76). -/
def Obligations.FieldRoundTrip : Prop :=
  ∀ shift width : Nat, width ≤ 32 → shift + width ≤ 32 →
    (∀ w v : Word, v.toNat < 2 ^ width →
      extractField (insertField w shift width v) shift width = v ∧
      insertField w shift width v &&& ~~~ fieldMask shift width = w &&& ~~~ fieldMask shift width) ∧
    (∀ (rd rs ra : Reg) (s : State), (s.reg rs).toNat < 2 ^ width →
      ∃ t u, exec (.insf rd rs shift width) s = .next t ∧ exec (.extf ra rd shift width) t = .next u ∧
        u.reg ra = s.reg rs ∧ t.reg rd &&& ~~~ fieldMask shift width = s.reg rd &&& ~~~ fieldMask shift width)

/-- A masked update by a value inside its mask writes exactly that value into the mask's bits and keeps the other bits
(40_bitfield.md R77). -/
def Obligations.MaskedUpdateWritesDefault : Prop :=
  ∀ (rd rs rm : Reg) (s : State), s.reg rs &&& ~~~ s.reg rm = 0 →
    ∃ t, exec (.mskupd rd rs rm) s = .next t ∧
      t.reg rd &&& s.reg rm = s.reg rs ∧ t.reg rd &&& ~~~ s.reg rm = s.reg rd &&& ~~~ s.reg rm

/-- The data-length codes and their lengths are in bijection, and DLC2LEN followed by LEN2DLC returns every code 0 to 15
without an error (41_dlc_size.md R86). -/
def Obligations.DlcBijection : Prop :=
  (∀ d, d ≤ 15 → dlcOf (dlcLen d) = some d) ∧ (∀ n d, dlcOf n = some d → d ≤ 15 ∧ dlcLen d = n) ∧
  (∀ (ra rb rs : Reg) (s : State), (s.reg rs).toNat ≤ 15 →
    ∃ t u, exec (.dlc2len ra rs) s = .next t ∧ exec (.len2dlc rb ra) t = .next u ∧ u.reg rb = s.reg rs ∧
      errOf t.status = 0 ∧ errOf u.status = 0)

/-- Both size tables are strictly increasing, every element size is a payload length, and a length fits an element
exactly when d ≤ k + 8 (41_dlc_size.md R87). -/
def Obligations.SizeTablesAreOrdered : Prop :=
  (∀ d e : Fin 16, d < e → dlcLen d.val < dlcLen e.val) ∧ (∀ k l : Fin 8, k < l → plsLen k.val < plsLen l.val) ∧
  (∀ k : Fin 8, plsLen k.val = dlcLen (k.val + 8)) ∧
  (∀ (d : Fin 16) (k : Fin 8), dlcLen d.val ≤ plsLen k.val ↔ d.val ≤ k.val + 8)

/-- An identifier that fits its kind comes back from its identifier word, whose EID field is 0 for a standard one, and a
word comes back from its identifier exactly when every bit that is ignored is 0: the bits outside SID, or outside SID
and EID (42_identifier.md R95). It holds for every non-overlapping layout (92_eei_decisions.md D9); the last clause
gives the ignored bits of the default layout (log entry 2), bits 31:11 and 31:29, which are the ones R95 names. -/
def Obligations.IdentifierRoundTrip : Prop :=
  (∀ lay : ObjLayout, lay.NonOverlapping →
    (∀ id : Word, id.toNat < 2 ^ 11 →
      ∃ w, idEncode lay id .standard = .ok w ∧ idDecode lay w .standard = id ∧ extractField w lay.eid 18 = 0) ∧
    (∀ id : Word, id.toNat < 2 ^ 29 → ∃ w, idEncode lay id .extended = .ok w ∧ idDecode lay w .extended = id) ∧
    (∀ w : Word, idEncode lay (idDecode lay w .standard) .standard = .ok w ↔ w &&& ~~~ fieldMask lay.sid 11 = 0) ∧
    (∀ w : Word, idEncode lay (idDecode lay w .extended) .extended = .ok w ↔ w &&& ~~~ headerMask0 lay = 0)) ∧
  ~~~ fieldMask objLayout.sid 11 = 0xFFFFF800 ∧ ~~~ headerMask0 objLayout = 0xE0000000

/-- Encode, then decode in any state that has the same OBJ bytes, OBJLEN and CFG, in a block with the same
non-overlapping layout: the frame registers the kind carries come back, F.LEN becomes the payload length, and DATA holds
the payload and, beyond the old F.LEN, the pad (43_object_codec.md R116). The pad of an empty payload is 0x00,
as R107 writes it (log entry 11 on 93_implementation_defined.md I17). -/
def Obligations.ObjectRoundTrip : Prop :=
  ∀ (kind : ObjKind) (pls : Fin 8) (s : State), encodeErrorCode kind pls s = 0 → s.layout.NonOverlapping →
    ∃ t, exec (kind.encoder pls) s = .next t ∧
      ∀ t' : State, (∀ a, t'.obj.read a = t.obj.read a) → t'.objlen = t.objlen → t'.cfg = t.cfg → t'.layout = t.layout →
        ∃ u, exec kind.decoder t' = .next u ∧ errOf u.status = 0 ∧
          (∀ f, kind.carries f = true → f ≠ .len → u.frame.get f = s.frame.get f) ∧
          (kind ≠ .tef → u.frame.len.toNat = dlcLen s.frame.dlc.toNat ∧
            ∀ a, a < dlcLen s.frame.dlc.toNat →
              u.data.read a =
                if a < s.frame.len.toNat then s.data.read a
                else if s.frame.len = 0 then 0 else s.data.read (s.frame.len.toNat - 1))

/-- The round trip of one object kind ends alike under any two non-overlapping layouts: encoding and then decoding as the
same kind end with the same frame registers, DATA bytes and STATUS, and the carried registers, the payload and the pad
are those that R116 gives (92_eei_decisions.md D9; 00_scope.md R8; 43_object_codec.md R116). It says nothing of an image
decoded as another kind. The pad of an empty payload is 0x00 (R107; log entry 11). -/
def Obligations.ObjectRoundTripForEveryLayout : Prop :=
  ∀ (lay lay' : ObjLayout) (kind : ObjKind) (pls : Fin 8) (s : State), lay.NonOverlapping → lay'.NonOverlapping →
    encodeErrorCode kind pls s = 0 →
    ∃ t u t' u', exec (kind.encoder pls) { s with layout := lay } = .next t ∧ exec kind.decoder t = .next u ∧
      exec (kind.encoder pls) { s with layout := lay' } = .next t' ∧ exec kind.decoder t' = .next u' ∧
      u.frame = u'.frame ∧ (∀ a, u.data.read a = u'.data.read a) ∧ u.status = u'.status ∧
      (∀ f, kind.carries f = true → f ≠ .len → u.frame.get f = s.frame.get f) ∧
      (kind ≠ .tef → u.frame.len.toNat = dlcLen s.frame.dlc.toNat ∧
        ∀ a, a < dlcLen s.frame.dlc.toNat →
          u.data.read a =
            if a < s.frame.len.toNat then s.data.read a
            else if s.frame.len = 0 then 0 else s.data.read (s.frame.len.toNat - 1))

/-- An image encoded with the 23-bit sequence tag and decoded with the 7-bit one gives the tag's low 7 bits, and a
decode with the 23-bit one gives the 23 bits of the flags word from the start of SEQ on, both without an error
(43_object_codec.md R119). R119 writes those bits as 31:9, their place in the default layout (log entry 2); here SEQ
stands where the block's layout puts it. -/
def Obligations.SequenceWidthMixUp : Prop :=
  (∀ (kind : ObjKind) (pls : Fin 8) (s t : State), kind ≠ .rx → s.cfg.toNat % 2 = 1 → encodeErrorCode kind pls s = 0 →
    s.layout.NonOverlapping → exec (kind.encoder pls) s = .next t →
    ∃ u, exec kind.decoder { t with cfg := 0 } = .next u ∧ errOf u.status = 0 ∧
      u.frame.seq.toNat = s.frame.seq.toNat % 2 ^ 7) ∧
  (∀ (kind : ObjKind) (s : State), kind ≠ .rx → s.cfg.toNat % 2 = 1 → decodeErrorCode kind s = 0 →
    ∃ u, exec kind.decoder s = .next u ∧ errOf u.status = 0 ∧
      u.frame.seq.toNat = (s.obj.readWord 4).toNat / 2 ^ s.layout.seq % 2 ^ 23)

/-- The encoders write every reserved bit of header words 0 and 1 as 0, and no decoder's result depends on them
(43_object_codec.md R118), whichever the layout. `headerMask0` and `headerMask1` are the bits that are not reserved; the
last clauses give them for the default layout (log entry 2), whose reserved bits are the ones R118 names. -/
def Obligations.ReservedBitsZeroAndIgnored : Prop :=
  (∀ (kind : ObjKind) (s : State),
    (∀ (pls : Fin 8) (t : State), encodeErrorCode kind pls s = 0 → exec (kind.encoder pls) s = .next t →
      t.obj.readWord 0 &&& ~~~ headerMask0 s.layout = 0 ∧ t.obj.readWord 4 &&& ~~~ headerMask1 s.layout kind s.cfg = 0) ∧
    (∀ obj' : Memory, obj'.readWord 0 &&& headerMask0 s.layout = s.obj.readWord 0 &&& headerMask0 s.layout →
      obj'.readWord 4 &&& headerMask1 s.layout kind s.cfg = s.obj.readWord 4 &&& headerMask1 s.layout kind s.cfg →
      (∀ a, 8 ≤ a → obj'.read a = s.obj.read a) →
      ∀ t, exec kind.decoder s = .next t → exec kind.decoder { s with obj := obj' } = .next { t with obj := obj' })) ∧
  headerMask0 objLayout = 0x1FFFFFFF ∧
  ∀ cfg : Word, headerMask1 objLayout .rx cfg = 0x0000F9FF ∧
    ∀ kind, kind ≠ .rx → headerMask1 objLayout kind cfg = if cfg.toNat % 2 = 0 then 0x0000FFFF else 0xFFFFFFFF

/-! ### What a command does not depend on -/

/-- A decoder never reads OBJ at or beyond OBJLEN: two OBJ buffers that agree below OBJLEN decode to the same registers,
DATA and STATUS (43_object_codec.md R112). -/
def Obligations.DecoderReadsOnlyBelowObjlen : Prop :=
  ∀ (kind : ObjKind) (s : State) (obj' : Memory), (∀ a, a < s.objlen.toNat → obj'.read a = s.obj.read a) →
    ∀ t, exec kind.decoder s = .next t → exec kind.decoder { s with obj := obj' } = .next { t with obj := obj' }

/-- An encoder reads the frame registers its kind carries and DATA below F.LEN, and no other frame register or DATA
byte: two states that agree on those give the same OBJ, OBJLEN and STATUS (10_state.md R32; 43_object_codec.md R109 to
R111). -/
def Obligations.EncoderReadsOnlyCarriedFields : Prop :=
  ∀ (kind : ObjKind) (pls : Fin 8) (s : State) (frame' : Frame) (data' : Memory),
    (∀ f, kind.carries f = true → frame'.get f = s.frame.get f) →
    (∀ a, a < s.frame.len.toNat → data'.read a = s.data.read a) →
    ∀ t, exec (kind.encoder pls) s = .next t →
      exec (kind.encoder pls) { s with frame := frame', data := data' } = .next { t with frame := frame', data := data' }

/-- No command reads ERR or ANYERR: with another STATUS every command does the same to everything else and reports the
same ERR (10_state.md R30). -/
def Obligations.NoCommandReadsStatus : Prop :=
  ∀ (i : Instr) (s t : State) (status' : Word), exec i s = .next t →
    ∃ st, exec i { s with status := status' } = .next { t with status := st } ∧ errOf st = errOf t.status

/-! ### Invariants and runs -/

/-- Every step keeps the invariant: DATA and OBJ stay canonical and inside their size, the reserved bits of STATUS and
CFG stay 0, ERR stays a code of the table, and the layout stays non-overlapping (10_state.md R23, R24, R27, R28;
92_eei_decisions.md D9). -/
def Obligations.StepKeepsInvariant : Prop :=
  ∀ s t : State, s.Inv → step s = .next t → t.Inv

/-- The invariant holds after reset (10_state.md R33); the layout of State.reset is the default one (log entry 2). -/
def Obligations.ResetMeetsInvariant : Prop := State.reset.Inv

/-- A host that makes only admitted accesses never stops the block: whatever the words and values, every run of any
length goes on (60_exceptions.md R130, R136; 20_memory.md R45). Once every pending access is performed the run goes on
by idle steps, which change nothing: the model's choice (log entry 5). -/
def Obligations.AdmittedHostNeverStopsBlock : Prop :=
  ∀ (n : Nat) (s : State), (∀ a ∈ s.pending, a.admitted = true) → ∃ t, Sys2Proof.core.run n s = .next t

/-- No step changes the layout, the reset input included: it is a parameter of the block and no part of what a program
can write (00_scope.md R8; the field of State that carries it is log entry 10). -/
def Obligations.NoStepChangesLayout : Prop :=
  ∀ s t : State, step s = .next t → t.layout = s.layout
end

