-- ==== Sys2Proof/Laws/Bits.lean ====
section
/-! SUPPORT. What each bit-field and byte-order helper gives, bit by bit and as a number; later proofs cite these. -/

namespace Sys2Proof

theorem mask_toNat {n : Nat} (h : n ≤ 32) : (mask n).toNat = 2 ^ n - 1 := by
  have h1 : 2 ^ n ≤ 2 ^ 32 := Nat.pow_le_pow_right (by decide) h
  simp only [mask, BitVec.toNat_ofNat]
  exact Nat.mod_eq_of_lt (by omega)

@[simp] theorem mask_getLsbD (n i : Nat) (h : n ≤ 32) : (mask n).getLsbD i = decide (i < n) := by
  rw [← BitVec.testBit_toNat, mask_toNat h, Nat.testBit_two_pow_sub_one]

theorem extractField_toNat (w : Word) (s : Nat) {n : Nat} (h : n ≤ 32) :
    (extractField w s n).toNat = w.toNat / 2 ^ s % 2 ^ n := by
  simp only [extractField, BitVec.toNat_and, BitVec.toNat_ushiftRight, mask_toNat h]
  rw [Nat.and_two_pow_sub_one_eq_mod, Nat.shiftRight_eq_div_pow]

theorem extractField_getLsbD (w : Word) (s i : Nat) {n : Nat} (h : n ≤ 32) :
    (extractField w s n).getLsbD i = (decide (i < n) && w.getLsbD (s + i)) := by
  simp [extractField, h, Bool.and_comm]

theorem extractField_lt (w : Word) (s : Nat) {n : Nat} (h : n ≤ 32) : (extractField w s n).toNat < 2 ^ n := by
  rw [extractField_toNat w s h]
  exact Nat.mod_lt _ (by positivity)

theorem fieldMask_getLsbD (s n i : Nat) (h : n ≤ 32) :
    (fieldMask s n).getLsbD i = (decide (i < 32) && decide (s ≤ i) && decide (i < s + n)) := by
  simp only [fieldMask, BitVec.getLsbD_shiftLeft, mask_getLsbD _ _ h]
  rw [Bool.eq_iff_iff]
  simp only [Bool.and_eq_true, Bool.not_eq_true', decide_eq_true_eq, decide_eq_false_iff_not]
  omega

theorem insertField_getLsbD (w v : Word) (s n i : Nat) (h : n ≤ 32) (hi : i < 32) :
    (insertField w s n v).getLsbD i = if s ≤ i ∧ i < s + n then v.getLsbD (i - s) else w.getLsbD i := by
  simp only [insertField, BitVec.getLsbD_or, BitVec.getLsbD_and, BitVec.getLsbD_not, BitVec.getLsbD_shiftLeft,
    fieldMask_getLsbD _ _ _ h, mask_getLsbD _ _ h]
  by_cases h2 : s ≤ i <;> by_cases h3 : i < s + n
  · simp [h2, h3, hi, Nat.not_lt.mpr h2]
    intro _
    omega
  · simp [h2, h3, hi, Nat.not_lt.mpr h2]
    omega
  · simp [h2, h3, hi]
  · simp [h2, h3, hi]

/-- Two bits of a value below 2^n: none at or above n. -/
theorem getLsbD_of_toNat_lt {v : Word} {n i : Nat} (hv : v.toNat < 2 ^ n) (hi : n ≤ i) : v.getLsbD i = false := by
  rw [← BitVec.testBit_toNat]
  exact Nat.testBit_lt_two_pow (lt_of_lt_of_le hv (Nat.pow_le_pow_right (by decide) hi))

/-- A value that fits its field comes back out of a word that was ORed together with bits outside the field. -/
theorem extractField_or_shiftLeft {v rest : Word} {s n : Nat} (hn : s + n ≤ 32) (hv : v.toNat < 2 ^ n)
    (hrest : ∀ i, s ≤ i → i < s + n → rest.getLsbD i = false) :
    extractField (rest ||| (v <<< s)) s n = v := by
  apply BitVec.eq_of_getLsbD_eq
  intro i hi
  rw [extractField_getLsbD _ _ _ (by omega)]
  by_cases h : i < n
  · rw [BitVec.getLsbD_or, hrest (s + i) (by omega) (by omega), BitVec.getLsbD_shiftLeft, Nat.add_sub_cancel_left]
    simp only [h, decide_true, Bool.true_and, Bool.false_or, show s + i < 32 by omega, Nat.not_lt.mpr (Nat.le_add_right s i),
      decide_false, Bool.not_false]
  · simp only [h, decide_false, Bool.false_and, getLsbD_of_toNat_lt hv (Nat.le_of_not_lt h)]

/-- A shifted value that fits its field has no bit outside the field. -/
theorem getLsbD_shiftLeft_outside {v : Word} {s n i : Nat} (hv : v.toNat < 2 ^ n) (h : i < s ∨ s + n ≤ i) :
    (v <<< s).getLsbD i = false := by
  rw [BitVec.getLsbD_shiftLeft]
  rcases h with h | h
  · simp [h]
  · simp [getLsbD_of_toNat_lt hv (show n ≤ i - s by omega)]

/-- A shifted value that fits its field has no bit in a field that does not overlap it. -/
theorem getLsbD_shiftLeft_disjoint {v : Word} {s n t k i : Nat} (hv : v.toNat < 2 ^ n) (h : s + n ≤ t ∨ t + k ≤ s)
    (hi : i < k) : (v <<< s).getLsbD (t + i) = false :=
  getLsbD_shiftLeft_outside hv (by omega)

/-- A field of a word is `v` when its bits are those of `v`. -/
theorem extractField_eq {w v : Word} {s k : Nat} (hk : s + k ≤ 32) (hv : v.toNat < 2 ^ k)
    (h : ∀ i, i < k → w.getLsbD (s + i) = v.getLsbD i) : extractField w s k = v := by
  apply BitVec.eq_of_getLsbD_eq
  intro i _
  rw [extractField_getLsbD _ _ _ (by omega)]
  by_cases hik : i < k
  · simp [hik, h i hik]
  · simp [hik, getLsbD_of_toNat_lt hv (Nat.le_of_not_lt hik)]

/-- Two words with no bit in common, ORed, are their sum. -/
theorem or_toNat_of_disjoint {a b : Word} (h : ∀ i, a.getLsbD i = true → b.getLsbD i = false) :
    (a ||| b).toNat = a.toNat + b.toNat := by
  have hand : a.setWidth 33 &&& b.setWidth 33 = 0#33 := by
    apply BitVec.eq_of_getLsbD_eq
    intro i _
    have := h i
    cases ha : a.getLsbD i <;> simp_all
  have hadd := congrArg BitVec.toNat (BitVec.add_eq_or_of_and_eq_zero _ _ hand)
  have ha := a.isLt
  have hb := b.isLt
  simp only [BitVec.toNat_add, BitVec.toNat_or, BitVec.toNat_setWidth] at hadd ⊢
  rw [Nat.mod_eq_of_lt (show a.toNat < 2 ^ 33 by omega), Nat.mod_eq_of_lt (show b.toNat < 2 ^ 33 by omega)] at hadd
  omega

/-- A value that fits its field, shifted into it, as a number. -/
theorem shiftLeft_toNat {v : Word} {s n : Nat} (hs : s + n ≤ 32) (hv : v.toNat < 2 ^ n) :
    (v <<< s).toNat = 2 ^ s * v.toNat := by
  rw [BitVec.toNat_shiftLeft, Nat.shiftLeft_eq, Nat.mul_comm]
  apply Nat.mod_eq_of_lt
  calc 2 ^ s * v.toNat < 2 ^ s * 2 ^ n := Nat.mul_lt_mul_of_pos_left hv (by positivity)
    _ = 2 ^ (s + n) := (Nat.pow_add 2 s n).symm
    _ ≤ 2 ^ 32 := Nat.pow_le_pow_right (by decide) hs

/-- The bit of a shifted value that lies at offset `i` of its field. -/
theorem getLsbD_shiftLeft_inside {v : Word} {s n i : Nat} (hs : s + n ≤ 32) (hi : i < n) :
    (v <<< s).getLsbD (s + i) = v.getLsbD i := by
  rw [BitVec.getLsbD_shiftLeft]
  simp [show s + i < 32 by omega]

/-- Values shifted into fields that do not overlap have no bit in common. -/
theorem shiftLeft_disjoint {v w : Word} {s n t k : Nat} (hv : v.toNat < 2 ^ n) (hw : w.toNat < 2 ^ k)
    (h : s + n ≤ t ∨ t + k ≤ s) (i : Nat) (hi : (v <<< s).getLsbD i = true) : (w <<< t).getLsbD i = false := by
  by_cases h2 : i < s ∨ s + n ≤ i
  · rw [getLsbD_shiftLeft_outside hv h2] at hi
    cases hi
  · exact getLsbD_shiftLeft_outside hw (by omega)

/-- Two words that have no bit in common with `c` have none with it when ORed. -/
theorem or_disjoint {a b c : Word} (ha : ∀ i, a.getLsbD i = true → c.getLsbD i = false)
    (hb : ∀ i, b.getLsbD i = true → c.getLsbD i = false) (i : Nat) (h : (a ||| b).getLsbD i = true) :
    c.getLsbD i = false := by
  rw [BitVec.getLsbD_or, Bool.or_eq_true] at h
  exact h.elim (ha i) (hb i)

@[simp] theorem wordBytes_length (w : Word) : (wordBytes w).length = 4 := rfl

@[simp] theorem wordOfBytes_wordBytes (w : Word) :
    wordOfBytes (w.extractLsb' 0 8) (w.extractLsb' 8 8) (w.extractLsb' 16 8) (w.extractLsb' 24 8) = w := by
  apply BitVec.eq_of_getLsbD_eq
  intro i hi
  simp only [wordOfBytes, BitVec.getLsbD_append, BitVec.getLsbD_extractLsb']
  by_cases h1 : i < 8
  · simp [h1]
  · by_cases h2 : i - 8 < 8
    · simp [h1, h2, show 8 + (i - 8) = i by omega]
    · by_cases h3 : i - 8 - 8 < 8
      · simp [h1, h2, h3, show 16 + (i - 8 - 8) = i by omega]
      · simp [h1, h2, h3, show 24 + (i - 8 - 8 - 8) = i by omega, show i - 8 - 8 - 8 < 8 by omega]

/-- The word of four bytes as a number, least significant byte first. -/
theorem wordOfBytes_toNat (b0 b1 b2 b3 : Byte) :
    (wordOfBytes b0 b1 b2 b3).toNat =
      b0.toNat + 2 ^ 8 * b1.toNat + 2 ^ 16 * b2.toNat + 2 ^ 24 * b3.toNat := by
  have h0 := b0.isLt
  have h1 := b1.isLt
  have h2 := b2.isLt
  simp only [wordOfBytes, BitVec.toNat_append]
  rw [← Nat.shiftLeft_add_eq_or_of_lt h0, ← Nat.shiftLeft_add_eq_or_of_lt h1, ← Nat.shiftLeft_add_eq_or_of_lt h2]
  simp only [Nat.shiftLeft_eq]
  omega

end Sys2Proof
end

