-- ==== Sys2Proof/Laws/Flags.lean ====
section
/-! SUPPORT. What `done`, `raise` and a host write leave in STATUS and CFG. -/

namespace Sys2Proof.Machine

theorem errBits_eq : errBits = 0xF := by decide
theorem anyErrBit_eq : anyErrBit = 0x100 := by decide
theorem seqwBit_eq : seqwBit = 1 := by decide

theorem statusDone_eq (st : Word) : statusDone st = st &&& 0xFFFFFFF0 := by
  rw [statusDone, errBits_eq]
  rfl

theorem statusRaise_eq (st : Word) (e : Err) : statusRaise st e = (st &&& 0xFFFFFFF0) ||| e.code ||| 0x100 := by
  rw [statusRaise, errBits_eq, anyErrBit_eq]
  rfl

theorem Err.code_toNat (e : Err) : 1 ≤ e.code.toNat ∧ e.code.toNat ≤ 8 := by
  cases e <;> decide

theorem errOf_toNat (st : Word) : (errOf st).toNat = st.toNat % 2 ^ 4 := by
  rw [errOf, extractField_toNat _ _ (by decide)]
  simp

theorem anyErrOf_eq (st : Word) : anyErrOf st = st.getLsbD 8 := by
  have h : extractField st 8 1 = if st.getLsbD 8 then 1 else 0 := by
    apply BitVec.eq_of_getLsbD_eq
    intro i hi
    rw [extractField_getLsbD _ _ _ (by decide)]
    by_cases h0 : i = 0
    · subst h0
      cases st.getLsbD 8 <;> simp
    · have hne : ¬ i < 1 := by omega
      cases st.getLsbD 8
      · simp [hne]
      · simp only [hne, decide_false, Bool.false_and, if_true]
        rw [← BitVec.testBit_toNat]
        exact (Nat.testBit_lt_two_pow (show (1 : Word).toNat < 2 ^ i from
          lt_of_lt_of_le (by decide : 1 < 2 ^ 1) (Nat.pow_le_pow_right (by decide) (by omega)))).symm
  rw [anyErrOf, h]
  cases st.getLsbD 8 <;> rfl

theorem seqwOf_eq (cfg : Word) : seqwOf cfg = decide (cfg.toNat % 2 = 1) := by
  have h : (extractField cfg 0 1).toNat = cfg.toNat % 2 := by
    rw [extractField_toNat _ _ (by decide)]
    simp
  rw [seqwOf, Bool.eq_iff_iff, bne_iff_ne, decide_eq_true_eq, ne_eq, ← BitVec.toNat_inj, h]
  show ¬ cfg.toNat % 2 = 0 ↔ _
  omega

theorem seqBits_eq (cfg : Word) : seqBits cfg = if cfg.toNat % 2 = 0 then 7 else 23 := by
  rw [seqBits, seqwOf_eq]
  rcases Nat.mod_two_eq_zero_or_one cfg.toNat with h | h <;> simp [h]

theorem seqBits_le (cfg : Word) : seqBits cfg ≤ 23 := by
  rw [seqBits]
  split <;> decide

/-! ### After `done` -/

@[simp] theorem errOf_statusDone (st : Word) : errOf (statusDone st) = 0 := by
  apply BitVec.eq_of_getLsbD_eq
  intro i hi
  rw [errOf, extractField_getLsbD _ _ _ (by decide), statusDone, BitVec.getLsbD_and, BitVec.getLsbD_not, errBits,
    fieldMask_getLsbD _ _ _ (by decide)]
  by_cases h : i < 4 <;> simp [h, hi]

@[simp] theorem anyErrOf_statusDone (st : Word) : anyErrOf (statusDone st) = anyErrOf st := by
  rw [anyErrOf_eq, anyErrOf_eq, statusDone_eq, BitVec.getLsbD_and]
  exact Bool.and_true _

/-! ### After `raise` -/

@[simp] theorem errOf_statusRaise (st : Word) (e : Err) : errOf (statusRaise st e) = e.code := by
  apply BitVec.eq_of_getLsbD_eq
  intro i hi
  rw [errOf, extractField_getLsbD _ _ _ (by decide), statusRaise, BitVec.getLsbD_or, BitVec.getLsbD_or,
    BitVec.getLsbD_and, BitVec.getLsbD_not, errBits, anyErrBit, fieldMask_getLsbD _ _ _ (by decide),
    fieldMask_getLsbD _ _ _ (by decide)]
  by_cases h : i < 4
  · have h8 : ¬ 8 ≤ i := by omega
    simp [h, hi, h8]
  · have hc : e.code.getLsbD i = false :=
      getLsbD_of_toNat_lt (n := 4) (by have := e.code_toNat; omega) (by omega)
    simp [h, hc]

@[simp] theorem anyErrOf_statusRaise (st : Word) (e : Err) : anyErrOf (statusRaise st e) = true := by
  rw [anyErrOf_eq, statusRaise_eq, BitVec.getLsbD_or]
  exact Bool.or_true _

/-! ### Which bits of STATUS a command can change, and the legal values -/

theorem statusDone_frame (st : Word) : statusDone st &&& 0xFFFFFEF0 = st &&& 0xFFFFFEF0 := by
  rw [statusDone_eq, BitVec.and_assoc]
  rfl

theorem Err.code_frame (e : Err) : (e.code ||| 0x100) &&& 0xFFFFFEF0 = 0 := by
  cases e <;> decide

theorem statusRaise_frame (st : Word) (e : Err) : statusRaise st e &&& 0xFFFFFEF0 = st &&& 0xFFFFFEF0 := by
  rw [statusRaise_eq, BitVec.or_assoc, BitVec.and_comm, BitVec.and_or_distrib_left, BitVec.and_comm _ (e.code ||| _),
    e.code_frame, ← statusDone_eq, BitVec.and_comm _ (statusDone st), statusDone_frame]
  exact BitVec.or_zero

theorem statusLegal_iff (st : Word) : statusLegal st ↔ st &&& 0xFFFFFEF0 = 0 ∧ (errOf st).toNat ≤ 8 := by
  rw [statusLegal, errBits_eq, anyErrBit_eq]
  rfl

theorem statusLegal_done {st : Word} (h : statusLegal st) : statusLegal (statusDone st) := by
  rw [statusLegal_iff] at h ⊢
  exact ⟨by rw [statusDone_frame, h.1], by simp⟩

theorem statusLegal_raise {st : Word} (h : statusLegal st) (e : Err) : statusLegal (statusRaise st e) := by
  rw [statusLegal_iff] at h ⊢
  exact ⟨by rw [statusRaise_frame, h.1], by rw [errOf_statusRaise]; exact e.code_toNat.2⟩

/-! ### Host writes -/

theorem statusHostWrite_eq (st v : Word) :
    statusHostWrite st v = if v.getLsbD 8 then st &&& 0xFFFFFEFF else st := by
  rw [statusHostWrite, anyErrOf_eq, anyErrBit_eq]
  rfl

theorem errOf_statusHostWrite (st v : Word) : errOf (statusHostWrite st v) = errOf st := by
  rw [statusHostWrite_eq]
  split
  · apply BitVec.eq_of_getLsbD_eq
    intro i hi
    rw [errOf, errOf, extractField_getLsbD _ _ _ (by decide), extractField_getLsbD _ _ _ (by decide), BitVec.getLsbD_and]
    by_cases h : i < 4
    · interval_cases i <;> simp
    · simp [h]
  · rfl

theorem statusLegal_hostWrite {st : Word} (h : statusLegal st) (v : Word) : statusLegal (statusHostWrite st v) := by
  rw [statusLegal_iff] at h ⊢
  refine ⟨?_, by rw [errOf_statusHostWrite]; exact h.2⟩
  rw [statusHostWrite_eq]
  split
  · rw [BitVec.and_assoc, BitVec.and_comm _ 0xFFFFFEF0, ← BitVec.and_assoc, h.1]
    exact BitVec.zero_and
  · exact h.1

theorem cfgLegal_hostWrite {cfg : Word} (h : cfgLegal cfg) (v : Word) : cfgLegal (cfgHostWrite cfg v) := by
  rw [cfgLegal] at h ⊢
  rw [cfgHostWrite, h, seqwBit_eq, BitVec.and_comm, BitVec.and_or_distrib_left, BitVec.and_comm _ (v &&& 1),
    BitVec.and_assoc]
  simp

theorem cfgHostWrite_eq {cfg : Word} (h : cfgLegal cfg) (v : Word) :
    cfgHostWrite cfg v = BitVec.ofNat 32 (v.toNat % 2) := by
  rw [cfgLegal] at h
  rw [cfgHostWrite, h, seqwBit_eq]
  apply BitVec.eq_of_toNat_eq
  rw [BitVec.toNat_or, BitVec.toNat_and, BitVec.toNat_ofNat]
  show 0 ||| (v.toNat &&& 1) = _
  rw [Nat.zero_or]
  rw [Nat.and_one_is_mod, Nat.mod_eq_of_lt (show v.toNat % 2 < 2 ^ 32 by omega)]

end Sys2Proof.Machine
end

