-- ==== Sys2Proof/Laws/Memory.lean ====
section
/-! SUPPORT. The laws of the byte buffers: read after write, every other byte left alone, the canonical form kept, and
canonical buffers with the same bytes equal. -/

namespace Sys2Proof.Machine

/-! ### One byte -/

theorem Memory.read_erase (m : Memory) (a b : Nat) :
    (m.erase a).read b = if b = a then emptyByte else m.read b := by
  induction m with
  | nil => simp [Memory.erase, Memory.read]
  | cons cell rest ih =>
    obtain ⟨c, v⟩ := cell
    simp only [Memory.erase] at ih ⊢
    by_cases hca : c = a
    · subst hca
      by_cases hbc : b = c
      · subst hbc
        simpa using ih
      · simp [ih, hbc, Memory.read, Ne.symm hbc]
    · by_cases hcb : c = b
      · subst hcb
        simp [hca, Memory.read]
      · simp [hca, Memory.read, hcb, ih]

theorem Memory.read_insert (m : Memory) (a b : Nat) (v : Byte) (h : m.read a = emptyByte) (hn : ∀ c ∈ m, c.1 ≠ a) :
    (Memory.insert a v m).read b = if b = a then v else m.read b := by
  induction m with
  | nil =>
    by_cases hb : b = a
    · simp [Memory.insert, Memory.read, hb]
    · simp [Memory.insert, Memory.read, hb, Ne.symm hb]
  | cons cell rest ih =>
    obtain ⟨c, u⟩ := cell
    have hca : c ≠ a := hn _ (List.mem_cons_self ..)
    have hrest : ∀ d ∈ rest, d.1 ≠ a := fun d hd => hn d (List.mem_cons_of_mem _ hd)
    simp only [Memory.read, hca, if_false] at h
    simp only [Memory.insert]
    by_cases hlt : a < c
    · by_cases hb : b = a
      · simp [hlt, Memory.read, hb]
      · simp [hlt, Memory.read, hb, Ne.symm hb]
    · simp only [hlt, if_false, Memory.read, ih h hrest]
      by_cases hcb : c = b
      · simp [hcb, show b ≠ a from hcb ▸ hca]
      · simp [hcb]

theorem Memory.erase_no_entry (m : Memory) (a : Nat) : ∀ c ∈ m.erase a, c.1 ≠ a := by
  intro c hc
  simpa using (List.mem_filter.mp hc).2

/-- Read after write, for every buffer and every pair of offsets. -/
theorem Memory.read_write (m : Memory) (a b : Nat) (v : Byte) :
    (m.write a v).read b = if b = a then v else m.read b := by
  unfold Memory.write
  split
  · next h => rw [Memory.read_erase, h]
  · rw [Memory.read_insert _ _ _ _ (by simp [Memory.read_erase]) (m.erase_no_entry a), Memory.read_erase]
    by_cases hb : b = a <;> simp [hb]

@[simp] theorem Memory.read_write_same (m : Memory) (a : Nat) (v : Byte) : (m.write a v).read a = v := by
  simp [Memory.read_write]

theorem Memory.read_write_other (m : Memory) {a b : Nat} (v : Byte) (h : b ≠ a) : (m.write a v).read b = m.read b := by
  simp [Memory.read_write, h]

/-! ### Runs of bytes -/

/-- What a stored run of bytes leaves: its own bytes where it lies, every other byte as before. -/
theorem Memory.read_writeBytes (m : Memory) (a b : Nat) (bs : List Byte) :
    (m.writeBytes a bs).read b = if h : a ≤ b ∧ b - a < bs.length then bs[b - a]'h.2 else m.read b := by
  induction bs generalizing m a with
  | nil => simp [Memory.writeBytes]
  | cons v bs ih =>
    rw [Memory.writeBytes, ih]
    by_cases hab : b = a
    · subst hab
      simp
    · by_cases hlt : a ≤ b
      · have h1 : a + 1 ≤ b := by omega
        have h2 : b - a = (b - (a + 1)) + 1 := by omega
        by_cases h3 : b - (a + 1) < bs.length
        · simp [hlt, h1, h3, h2]
        · simp [hlt, h1, h3, h2, Memory.read_write_other _ _ hab]
      · simp [hlt, show ¬a + 1 ≤ b by omega, Memory.read_write_other _ _ hab]

theorem Memory.read_writeBytes_inside (m : Memory) {a k : Nat} {bs : List Byte} (h : k < bs.length) :
    (m.writeBytes a bs).read (a + k) = bs[k] := by
  rw [Memory.read_writeBytes]
  simp [h]

theorem Memory.read_writeBytes_outside (m : Memory) {a b : Nat} {bs : List Byte} (h : b < a ∨ a + bs.length ≤ b) :
    (m.writeBytes a bs).read b = m.read b := by
  rw [Memory.read_writeBytes, dif_neg (by omega)]

@[simp] theorem Memory.readBytes_length (m : Memory) (a n : Nat) : (m.readBytes a n).length = n := by
  induction n generalizing a with
  | zero => rfl
  | succ n ih => simp [Memory.readBytes, ih]

@[simp] theorem Memory.readBytes_getElem (m : Memory) (a n k : Nat) (h : k < (m.readBytes a n).length) :
    (m.readBytes a n)[k] = m.read (a + k) := by
  induction n generalizing a k with
  | zero => simp [Memory.readBytes] at h
  | succ n ih =>
    cases k with
    | zero => rfl
    | succ k =>
      simp only [Memory.readBytes, List.getElem_cons_succ]
      rw [ih]
      congr 1
      omega

/-- Reading depends only on the bytes read. -/
theorem Memory.readBytes_congr {m m' : Memory} {a n : Nat} (h : ∀ b, a ≤ b → b < a + n → m.read b = m'.read b) :
    m.readBytes a n = m'.readBytes a n := by
  apply List.ext_getElem (by simp)
  intro k hk _
  simp only [Memory.readBytes_length] at hk
  simp [h (a + k) (by omega) (by omega)]

theorem Memory.readWord_congr {m m' : Memory} {a : Nat} (h : ∀ b, a ≤ b → b < a + 4 → m.read b = m'.read b) :
    m.readWord a = m'.readWord a := by
  simp [Memory.readWord, h a (by omega) (by omega), h (a + 1) (by omega) (by omega), h (a + 2) (by omega) (by omega),
    h (a + 3) (by omega) (by omega)]

theorem Memory.read_writeWord_outside (m : Memory) {a b : Nat} (w : Word) (h : b < a ∨ a + 4 ≤ b) :
    (m.writeWord a w).read b = m.read b :=
  m.read_writeBytes_outside (by simpa using h)

@[simp] theorem Memory.readWord_writeWord (m : Memory) (a : Nat) (w : Word) : (m.writeWord a w).readWord a = w := by
  have h (k : Nat) (hk : k < 4) : (m.writeWord a w).read (a + k) = (wordBytes w)[k] :=
    m.read_writeBytes_inside hk
  have h0 := h 0 (by decide)
  rw [Nat.add_zero] at h0
  simp only [Memory.readWord, h0, h 1 (by decide), h 2 (by decide), h 3 (by decide)]
  exact wordOfBytes_wordBytes w

/-- A word read from an offset where a stored run holds the four bytes of `w` is `w`. -/
theorem Memory.readWord_writeBytes (m : Memory) {a : Nat} {pre post : List Byte} (w : Word) (h : a = pre.length) :
    (m.writeBytes 0 (pre ++ wordBytes w ++ post)).readWord a = w := by
  subst h
  have h (k : Nat) (hk : k < 4) :
      (m.writeBytes 0 (pre ++ wordBytes w ++ post)).read (pre.length + k) = (wordBytes w)[k] := by
    have := m.read_writeBytes_inside (a := 0) (k := pre.length + k) (bs := pre ++ wordBytes w ++ post)
      (by simp; omega)
    rw [Nat.zero_add] at this
    rw [this, List.getElem_append_left (by simp; omega), List.getElem_append_right (by omega)]
    congr 1
    omega
  have h0 := h 0 (by decide)
  rw [Nat.add_zero] at h0
  simp only [Memory.readWord, h0, h 1 (by decide), h 2 (by decide), h 3 (by decide)]
  exact wordOfBytes_wordBytes w

/-! ### The canonical form -/

theorem Memory.wf_nil (size : Nat) : Memory.wf size [] := by simp [Memory.wf]

theorem Memory.wf_erase {size : Nat} {m : Memory} (h : m.wf size) (a : Nat) : (m.erase a).wf size :=
  ⟨h.1.filter _, fun c hc => h.2 c (List.mem_filter.mp hc).1⟩

theorem Memory.mem_insert {m : Memory} {a : Nat} {v : Byte} {c : Host.Cell} :
    c ∈ Memory.insert a v m ↔ c = (a, v) ∨ c ∈ m := by
  induction m with
  | nil => simp [Memory.insert]
  | cons d rest ih =>
    simp only [Memory.insert]
    split
    · simp
    · simp only [List.mem_cons, ih]
      tauto

theorem Memory.wf_insert {size : Nat} {m : Memory} {a : Nat} {v : Byte} (h : m.wf size) (ha : a < size)
    (hv : v ≠ emptyByte) (hn : ∀ c ∈ m, c.1 ≠ a) : (Memory.insert a v m).wf size := by
  refine ⟨?_, fun c hc => ?_⟩
  · induction m with
    | nil => simp [Memory.insert]
    | cons d rest ih =>
      have hd := List.pairwise_cons.mp h.1
      have hne : d.1 ≠ a := hn d (List.mem_cons_self ..)
      simp only [Memory.insert]
      split
      · next hlt =>
        refine List.pairwise_cons.mpr ⟨fun c hc => ?_, h.1⟩
        rcases List.mem_cons.mp hc with rfl | hc
        · exact hlt
        · exact lt_trans hlt (hd.1 c hc)
      · refine List.pairwise_cons.mpr ⟨fun c hc => ?_, ?_⟩
        · rcases Memory.mem_insert.mp hc with rfl | hc
          · show d.1 < a
            omega
          · exact hd.1 c hc
        · exact ih ⟨hd.2, fun c hc => h.2 c (List.mem_cons_of_mem _ hc)⟩
            fun c hc => hn c (List.mem_cons_of_mem _ hc)
  · rcases Memory.mem_insert.mp hc with rfl | hc
    · exact ⟨ha, hv⟩
    · exact h.2 c hc

theorem Memory.wf_write {size : Nat} {m : Memory} (h : m.wf size) {a : Nat} (ha : a < size) (v : Byte) :
    (m.write a v).wf size := by
  unfold Memory.write
  split
  · exact Memory.wf_erase h a
  · next hv => exact Memory.wf_insert (Memory.wf_erase h a) ha hv (m.erase_no_entry a)

theorem Memory.wf_writeBytes {size : Nat} {m : Memory} (h : m.wf size) {a : Nat} {bs : List Byte}
    (ha : a + bs.length ≤ size) : (m.writeBytes a bs).wf size := by
  induction bs generalizing m a with
  | nil => exact h
  | cons v bs ih =>
    simp only [List.length_cons] at ha
    exact ih (Memory.wf_write h (by omega) v) (by omega)

theorem Memory.wf_writeWord {size : Nat} {m : Memory} (h : m.wf size) {a : Nat} (ha : a + 4 ≤ size) (w : Word) :
    (m.writeWord a w).wf size :=
  Memory.wf_writeBytes h (by simpa using ha)

theorem Memory.read_no_entry {m : Memory} {a : Nat} (h : ∀ c ∈ m, c.1 ≠ a) : m.read a = emptyByte := by
  induction m with
  | nil => rfl
  | cons c rest ih =>
    obtain ⟨b, u⟩ := c
    have hb : b ≠ a := h (b, u) (List.mem_cons_self ..)
    simp only [Memory.read, hb, if_false]
    exact ih fun c hc => h c (List.mem_cons_of_mem _ hc)

/-- Canonical buffers that read the same everywhere are the same list. -/
theorem Memory.ext_of_wf {size : Nat} {m m' : Memory} (h : m.wf size) (h' : m'.wf size)
    (heq : ∀ a, m.read a = m'.read a) : m = m' := by
  induction m generalizing m' with
  | nil =>
    cases m' with
    | nil => rfl
    | cons c rest =>
      obtain ⟨b, u⟩ := c
      have hu := (h'.2 (b, u) (List.mem_cons_self ..)).2
      exact absurd (by simpa [Memory.read] using (heq b).symm) hu
  | cons c rest ih =>
    obtain ⟨b, u⟩ := c
    have hu := (h.2 (b, u) (List.mem_cons_self ..)).2
    cases m' with
    | nil => exact absurd (by simpa [Memory.read] using heq b) hu
    | cons c' rest' =>
      obtain ⟨b', u'⟩ := c'
      have hu' := (h'.2 (b', u') (List.mem_cons_self ..)).2
      have hp := List.pairwise_cons.mp h.1
      have hp' := List.pairwise_cons.mp h'.1
      have hle : ¬ b < b' := by
        intro hlt
        have hnone : Memory.read ((b', u') :: rest') b = emptyByte := by
          refine Memory.read_no_entry fun c hc => ?_
          rcases List.mem_cons.mp hc with rfl | hc
          · exact ne_of_gt hlt
          · exact ne_of_gt (lt_trans hlt (hp'.1 c hc))
        have hb := heq b
        rw [hnone] at hb
        exact hu (by simpa [Memory.read] using hb)
      have hge : ¬ b' < b := by
        intro hlt
        have hnone : Memory.read ((b, u) :: rest) b' = emptyByte := by
          refine Memory.read_no_entry fun c hc => ?_
          rcases List.mem_cons.mp hc with rfl | hc
          · exact ne_of_gt hlt
          · exact ne_of_gt (lt_trans hlt (hp.1 c hc))
        have := heq b'
        rw [hnone] at this
        exact hu' (by simpa [Memory.read] using this.symm)
      obtain rfl : b = b' := by omega
      obtain rfl : u = u' := by simpa [Memory.read] using heq b
      congr 1
      refine ih ⟨hp.2, fun c hc => h.2 c (List.mem_cons_of_mem _ hc)⟩
        ⟨hp'.2, fun c hc => h'.2 c (List.mem_cons_of_mem _ hc)⟩ fun a => ?_
      by_cases ha : b = a
      · subst ha
        rw [Memory.read_no_entry fun c hc => ne_of_gt (hp.1 c hc),
          Memory.read_no_entry fun c hc => ne_of_gt (hp'.1 c hc)]
      · simpa [Memory.read, ha] using heq a

end Sys2Proof.Machine
end

