-- ==== Sys2Proof/Laws/State.lean ====
section
/-! SUPPORT. One lemma per field per update of State, so that no proof unfolds a record update. -/

namespace Sys2Proof.Machine

/-! ### State.setReg -/

@[simp] theorem State.setReg_gpr (s : State) (r : Reg) (v : Word) : (s.setReg r v).gpr = s.gpr.set r v := rfl
@[simp] theorem State.setReg_cmd (s : State) (r : Reg) (v : Word) : (s.setReg r v).cmd = s.cmd := rfl
@[simp] theorem State.setReg_status (s : State) (r : Reg) (v : Word) : (s.setReg r v).status = s.status := rfl
@[simp] theorem State.setReg_cfg (s : State) (r : Reg) (v : Word) : (s.setReg r v).cfg = s.cfg := rfl
@[simp] theorem State.setReg_objlen (s : State) (r : Reg) (v : Word) : (s.setReg r v).objlen = s.objlen := rfl
@[simp] theorem State.setReg_frame (s : State) (r : Reg) (v : Word) : (s.setReg r v).frame = s.frame := rfl
@[simp] theorem State.setReg_data (s : State) (r : Reg) (v : Word) : (s.setReg r v).data = s.data := rfl
@[simp] theorem State.setReg_obj (s : State) (r : Reg) (v : Word) : (s.setReg r v).obj = s.obj := rfl
@[simp] theorem State.setReg_layout (s : State) (r : Reg) (v : Word) : (s.setReg r v).layout = s.layout := rfl
@[simp] theorem State.setReg_pending (s : State) (r : Reg) (v : Word) : (s.setReg r v).pending = s.pending := rfl
@[simp] theorem State.setReg_replies (s : State) (r : Reg) (v : Word) : (s.setReg r v).replies = s.replies := rfl

/-! ### State.done -/

@[simp] theorem State.done_gpr (s : State) : s.done.gpr = s.gpr := rfl
@[simp] theorem State.done_cmd (s : State) : s.done.cmd = s.cmd := rfl
@[simp] theorem State.done_status (s : State) : s.done.status = statusDone s.status := rfl
@[simp] theorem State.done_cfg (s : State) : s.done.cfg = s.cfg := rfl
@[simp] theorem State.done_objlen (s : State) : s.done.objlen = s.objlen := rfl
@[simp] theorem State.done_frame (s : State) : s.done.frame = s.frame := rfl
@[simp] theorem State.done_data (s : State) : s.done.data = s.data := rfl
@[simp] theorem State.done_obj (s : State) : s.done.obj = s.obj := rfl
@[simp] theorem State.done_layout (s : State) : s.done.layout = s.layout := rfl
@[simp] theorem State.done_pending (s : State) : s.done.pending = s.pending := rfl
@[simp] theorem State.done_replies (s : State) : s.done.replies = s.replies := rfl

/-! ### State.raise -/

@[simp] theorem State.raise_gpr (s : State) (e : Err) : (s.raise e).gpr = s.gpr := rfl
@[simp] theorem State.raise_cmd (s : State) (e : Err) : (s.raise e).cmd = s.cmd := rfl
@[simp] theorem State.raise_status (s : State) (e : Err) : (s.raise e).status = statusRaise s.status e := rfl
@[simp] theorem State.raise_cfg (s : State) (e : Err) : (s.raise e).cfg = s.cfg := rfl
@[simp] theorem State.raise_objlen (s : State) (e : Err) : (s.raise e).objlen = s.objlen := rfl
@[simp] theorem State.raise_frame (s : State) (e : Err) : (s.raise e).frame = s.frame := rfl
@[simp] theorem State.raise_data (s : State) (e : Err) : (s.raise e).data = s.data := rfl
@[simp] theorem State.raise_obj (s : State) (e : Err) : (s.raise e).obj = s.obj := rfl
@[simp] theorem State.raise_layout (s : State) (e : Err) : (s.raise e).layout = s.layout := rfl
@[simp] theorem State.raise_pending (s : State) (e : Err) : (s.raise e).pending = s.pending := rfl
@[simp] theorem State.raise_replies (s : State) (e : Err) : (s.raise e).replies = s.replies := rfl

/-! ### State.storeImage -/

@[simp] theorem State.storeImage_gpr (s : State) (image : List Byte) (size : Nat) :
    (s.storeImage image size).gpr = s.gpr := rfl
@[simp] theorem State.storeImage_cmd (s : State) (image : List Byte) (size : Nat) :
    (s.storeImage image size).cmd = s.cmd := rfl
@[simp] theorem State.storeImage_status (s : State) (image : List Byte) (size : Nat) :
    (s.storeImage image size).status = s.status := rfl
@[simp] theorem State.storeImage_cfg (s : State) (image : List Byte) (size : Nat) :
    (s.storeImage image size).cfg = s.cfg := rfl
@[simp] theorem State.storeImage_objlen (s : State) (image : List Byte) (size : Nat) :
    (s.storeImage image size).objlen = BitVec.ofNat 32 size := rfl
@[simp] theorem State.storeImage_frame (s : State) (image : List Byte) (size : Nat) :
    (s.storeImage image size).frame = s.frame := rfl
@[simp] theorem State.storeImage_data (s : State) (image : List Byte) (size : Nat) :
    (s.storeImage image size).data = s.data := rfl
@[simp] theorem State.storeImage_obj (s : State) (image : List Byte) (size : Nat) :
    (s.storeImage image size).obj = s.obj.writeBytes 0 image := rfl
@[simp] theorem State.storeImage_layout (s : State) (image : List Byte) (size : Nat) :
    (s.storeImage image size).layout = s.layout := rfl
@[simp] theorem State.storeImage_pending (s : State) (image : List Byte) (size : Nat) :
    (s.storeImage image size).pending = s.pending := rfl
@[simp] theorem State.storeImage_replies (s : State) (image : List Byte) (size : Nat) :
    (s.storeImage image size).replies = s.replies := rfl

/-! ### State.loadPayload -/

@[simp] theorem State.loadPayload_gpr (s : State) (kind : ObjKind) (len : Nat) :
    (s.loadPayload kind len).gpr = s.gpr := rfl
@[simp] theorem State.loadPayload_cmd (s : State) (kind : ObjKind) (len : Nat) :
    (s.loadPayload kind len).cmd = s.cmd := rfl
@[simp] theorem State.loadPayload_status (s : State) (kind : ObjKind) (len : Nat) :
    (s.loadPayload kind len).status = s.status := rfl
@[simp] theorem State.loadPayload_cfg (s : State) (kind : ObjKind) (len : Nat) :
    (s.loadPayload kind len).cfg = s.cfg := rfl
@[simp] theorem State.loadPayload_objlen (s : State) (kind : ObjKind) (len : Nat) :
    (s.loadPayload kind len).objlen = s.objlen := rfl
@[simp] theorem State.loadPayload_frame (s : State) (kind : ObjKind) (len : Nat) :
    (s.loadPayload kind len).frame = s.frame := rfl
@[simp] theorem State.loadPayload_data (s : State) (kind : ObjKind) (len : Nat) :
    (s.loadPayload kind len).data = s.data.writeBytes 0 (s.obj.readBytes (headerSize kind) len) := rfl
@[simp] theorem State.loadPayload_obj (s : State) (kind : ObjKind) (len : Nat) :
    (s.loadPayload kind len).obj = s.obj := rfl
@[simp] theorem State.loadPayload_layout (s : State) (kind : ObjKind) (len : Nat) :
    (s.loadPayload kind len).layout = s.layout := rfl
@[simp] theorem State.loadPayload_pending (s : State) (kind : ObjKind) (len : Nat) :
    (s.loadPayload kind len).pending = s.pending := rfl
@[simp] theorem State.loadPayload_replies (s : State) (kind : ObjKind) (len : Nat) :
    (s.loadPayload kind len).replies = s.replies := rfl

/-! ### State.hostRead -/

@[simp] theorem State.hostRead_gpr (s : State) (loc : Loc) : (s.hostRead loc).gpr = s.gpr := rfl
@[simp] theorem State.hostRead_cmd (s : State) (loc : Loc) : (s.hostRead loc).cmd = s.cmd := rfl
@[simp] theorem State.hostRead_status (s : State) (loc : Loc) : (s.hostRead loc).status = s.status := rfl
@[simp] theorem State.hostRead_cfg (s : State) (loc : Loc) : (s.hostRead loc).cfg = s.cfg := rfl
@[simp] theorem State.hostRead_objlen (s : State) (loc : Loc) : (s.hostRead loc).objlen = s.objlen := rfl
@[simp] theorem State.hostRead_frame (s : State) (loc : Loc) : (s.hostRead loc).frame = s.frame := rfl
@[simp] theorem State.hostRead_data (s : State) (loc : Loc) : (s.hostRead loc).data = s.data := rfl
@[simp] theorem State.hostRead_obj (s : State) (loc : Loc) : (s.hostRead loc).obj = s.obj := rfl
@[simp] theorem State.hostRead_layout (s : State) (loc : Loc) : (s.hostRead loc).layout = s.layout := rfl
@[simp] theorem State.hostRead_pending (s : State) (loc : Loc) : (s.hostRead loc).pending = s.pending := rfl
@[simp] theorem State.hostRead_replies (s : State) (loc : Loc) :
    (s.hostRead loc).replies = s.readLoc loc :: s.replies := rfl

/-! ### State.withFetchWord -/

@[simp] theorem State.withFetchWord_gpr (s : State) (nbits w : Nat) : (s.withFetchWord nbits w).gpr = s.gpr := rfl
@[simp] theorem State.withFetchWord_cmd (s : State) (nbits w : Nat) : (s.withFetchWord nbits w).cmd = s.cmd := rfl
@[simp] theorem State.withFetchWord_status (s : State) (nbits w : Nat) :
    (s.withFetchWord nbits w).status = s.status := rfl
@[simp] theorem State.withFetchWord_cfg (s : State) (nbits w : Nat) : (s.withFetchWord nbits w).cfg = s.cfg := rfl
@[simp] theorem State.withFetchWord_objlen (s : State) (nbits w : Nat) :
    (s.withFetchWord nbits w).objlen = s.objlen := rfl
@[simp] theorem State.withFetchWord_frame (s : State) (nbits w : Nat) : (s.withFetchWord nbits w).frame = s.frame := rfl
@[simp] theorem State.withFetchWord_data (s : State) (nbits w : Nat) : (s.withFetchWord nbits w).data = s.data := rfl
@[simp] theorem State.withFetchWord_obj (s : State) (nbits w : Nat) : (s.withFetchWord nbits w).obj = s.obj := rfl
@[simp] theorem State.withFetchWord_layout (s : State) (nbits w : Nat) : (s.withFetchWord nbits w).layout = s.layout := rfl
@[simp] theorem State.withFetchWord_pending (s : State) (nbits w : Nat) :
    (s.withFetchWord nbits w).pending = .write .w32 0x000 (tableWord nbits w) :: s.pending := rfl
@[simp] theorem State.withFetchWord_replies (s : State) (nbits w : Nat) :
    (s.withFetchWord nbits w).replies = s.replies := rfl

/-! ### State.resetBlock -/

@[simp] theorem State.resetBlock_pending (s : State) : s.resetBlock.pending = s.pending := rfl
@[simp] theorem State.resetBlock_replies (s : State) : s.resetBlock.replies = s.replies := rfl
@[simp] theorem State.resetBlock_gpr (s : State) : s.resetBlock.gpr = State.reset.gpr := rfl
@[simp] theorem State.resetBlock_cmd (s : State) : s.resetBlock.cmd = State.reset.cmd := rfl
@[simp] theorem State.resetBlock_status (s : State) : s.resetBlock.status = State.reset.status := rfl
@[simp] theorem State.resetBlock_cfg (s : State) : s.resetBlock.cfg = State.reset.cfg := rfl
@[simp] theorem State.resetBlock_objlen (s : State) : s.resetBlock.objlen = State.reset.objlen := rfl
@[simp] theorem State.resetBlock_frame (s : State) : s.resetBlock.frame = State.reset.frame := rfl
@[simp] theorem State.resetBlock_data (s : State) : s.resetBlock.data = State.reset.data := rfl
@[simp] theorem State.resetBlock_obj (s : State) : s.resetBlock.obj = State.reset.obj := rfl
@[simp] theorem State.resetBlock_layout (s : State) : s.resetBlock.layout = s.layout := rfl

/-! ### Registers -/

theorem State.reg_setReg (s : State) (r q : Reg) (v : Word) :
    (s.setReg r v).reg q = if q = r then v else s.reg q := by
  simp only [State.reg, State.setReg]
  by_cases h : q = r
  · subst h
    simp
  · have : r.val ≠ q.val := fun h' => h (Fin.ext h'.symm)
    simp [h, this]

@[simp] theorem State.reg_setReg_same (s : State) (r : Reg) (v : Word) : (s.setReg r v).reg r = v := by
  simp [State.reg_setReg]

@[simp] theorem State.reg_done (s : State) (r : Reg) : s.done.reg r = s.reg r := rfl

@[simp] theorem State.reg_raise (s : State) (e : Err) (r : Reg) : (s.raise e).reg r = s.reg r := rfl

/-! ### Frame registers -/

@[simp] theorem Frame.get_set_same (f : Frame) (r : FrameReg) (v : Word) : (f.set r v).get r = v := by
  cases r <;> rfl

theorem Frame.get_set_other (f : Frame) {r q : FrameReg} (v : Word) (h : q ≠ r) : (f.set r v).get q = f.get q := by
  cases r <;> cases q <;> first | rfl | exact absurd rfl h

/-- Frames with the same registers are the same frame. -/
theorem Frame.ext_get {f g : Frame} (h : ∀ r, f.get r = g.get r) : f = g := by
  have h1 := h .id
  have h2 := h .ide
  have h3 := h .rtr
  have h4 := h .brs
  have h5 := h .fdf
  have h6 := h .esi
  have h7 := h .dlc
  have h8 := h .seq
  have h9 := h .filhit
  have h10 := h .ts
  have h11 := h .len
  cases f
  cases g
  simp_all [Frame.get]

end Sys2Proof.Machine
end

