-- ==== Sys2Proof/Laws/Commands.lean ====
section
/-! SUPPORT. What a command can do, said once: `effect` is what every arm of exec completes, and each shared operation
of the commands has one lemma with everything its success says. -/

namespace Sys2Proof.Machine

/-! ### How a command ends -/

@[simp] theorem complete_ok (s t : State) : complete s (.ok t) = .next t.done := rfl

@[simp] theorem complete_error (s : State) (e : Err) : complete s (.error e) = .next (s.raise e) := rfl

/-- What the command does between its start and its end: every arm of exec is `complete` of it. -/
def effect : Instr → State → Except Err State
  | .nop, s => .ok s
  | .extf rd rs shift width, s => extf rd rs shift width s
  | .insf rd rs shift width, s => insf rd rs shift width s
  | .mskupd rd rs rm, s => .ok (s.setReg rd (maskedUpdate (s.reg rd) (s.reg rs) (s.reg rm)))
  | .dlc2len rd rs, s => dlc2len rd rs s
  | .len2dlc rd rs, s => len2dlc rd rs s
  | .pls2len rd rs, s => pls2len rd rs s
  | .idenc rd rs x, s => idenc rd rs x s
  | .iddec rd rs x, s => .ok (s.setReg rd (idDecode s.layout (s.reg rs) x))
  | .enctx pls, s => encTx pls s
  | .encrx pls, s => encRx pls s
  | .enctef, s => encTef s
  | .dectx, s => decTx s
  | .decrx, s => decRx s
  | .dectef, s => decTef s

theorem exec_eq (i : Instr) (s : State) : exec i s = complete s (effect i s) := by
  cases i <;> rfl

/-- The inversion of exec: it always answers a next state, the effect's with `done` or the start's with `raise`. -/
theorem exec_next_iff {i : Instr} {s t : State} :
    exec i s = .next t ↔ (∃ u, effect i s = .ok u ∧ t = u.done) ∨ ∃ e, effect i s = .error e ∧ t = s.raise e := by
  rw [exec_eq]
  cases h : effect i s with
  | ok u => simp [eq_comm]
  | error e => simp [eq_comm]

/-! ### Checks -/

@[simp] theorem require_eq_ok {p : Prop} [Decidable p] {e : Err} {u : Unit} : require p e = .ok u ↔ p := by
  unfold require
  split <;> simp_all

@[simp] theorem require_eq_error {p : Prop} [Decidable p] {e e' : Err} :
    require p e = .error e' ↔ ¬p ∧ e = e' := by
  unfold require
  split <;> simp_all

theorem require_true {p : Prop} [Decidable p] (e : Err) (h : p) : require p e = .ok () := by
  simp [require, h]

theorem require_false {p : Prop} [Decidable p] (e : Err) (h : ¬p) : require p e = .error e := by
  simp [require, h]

/-- A sequence of two parts succeeds when both do. -/
theorem bind_eq_ok {α β : Type} {x : Except Err α} {f : α → Except Err β} {b : β} :
    (x >>= f) = .ok b ↔ ∃ a, x = .ok a ∧ f a = .ok b := by
  cases x with
  | ok a => simp [bind, Except.bind]
  | error e => simp [bind, Except.bind]

@[simp] theorem pure_eq_ok {α : Type} {a b : α} : (pure a : Except Err α) = .ok b ↔ a = b := by
  simp [pure, Except.pure]

@[simp] theorem ok_bind {α β : Type} (a : α) (f : α → Except Err β) : (Except.ok a >>= f) = f a := rfl

@[simp] theorem error_bind {α β : Type} (e : Err) (f : α → Except Err β) :
    ((Except.error e : Except Err α) >>= f) = .error e := rfl

/-! ### What each effect gives when it succeeds -/

theorem extf_ok_iff {rd rs : Reg} {shift width : Nat} {s t : State} :
    extf rd rs shift width s = .ok t ↔
      (width ≤ 32 ∧ shift + width ≤ 32) ∧ t = s.setReg rd (extractField (s.reg rs) shift width) := by
  simp only [extf, bind_eq_ok, require_eq_ok, pure_eq_ok, exists_const, descriptorLegal,
    Bool.and_eq_true, decide_eq_true_eq, @eq_comm _ t]

theorem insf_ok_iff {rd rs : Reg} {shift width : Nat} {s t : State} :
    insf rd rs shift width s = .ok t ↔
      (width ≤ 32 ∧ shift + width ≤ 32) ∧ (s.reg rs).toNat ≤ (mask width).toNat ∧
        t = s.setReg rd (insertField (s.reg rd) shift width (s.reg rs)) := by
  simp only [insf, bind_eq_ok, require_eq_ok, pure_eq_ok, exists_const, descriptorLegal,
    Bool.and_eq_true, decide_eq_true_eq, @eq_comm _ t]

theorem dlc2len_ok_iff {rd rs : Reg} {s t : State} :
    dlc2len rd rs s = .ok t ↔
      (s.reg rs).toNat ≤ 15 ∧ t = s.setReg rd (BitVec.ofNat 32 (dlcLen (s.reg rs).toNat)) := by
  simp only [dlc2len, bind_eq_ok, require_eq_ok, pure_eq_ok, exists_const, @eq_comm _ t]

theorem len2dlc_ok_iff {rd rs : Reg} {s t : State} :
    len2dlc rd rs s = .ok t ↔
      ∃ d, dlcOf (s.reg rs).toNat = some d ∧ t = s.setReg rd (BitVec.ofNat 32 d) := by
  cases h : dlcOf (s.reg rs).toNat with
  | none => simp [len2dlc, h]
  | some d => simp [len2dlc, h, @eq_comm _ t]

theorem pls2len_ok_iff {rd rs : Reg} {s t : State} :
    pls2len rd rs s = .ok t ↔
      (s.reg rs).toNat ≤ 7 ∧ t = s.setReg rd (BitVec.ofNat 32 (plsLen (s.reg rs).toNat)) := by
  simp only [pls2len, bind_eq_ok, require_eq_ok, pure_eq_ok, exists_const, @eq_comm _ t]

theorem idenc_ok_iff {rd rs : Reg} {x : IdKind} {s t : State} :
    idenc rd rs x s = .ok t ↔ ∃ w, idEncode s.layout (s.reg rs) x = .ok w ∧ t = s.setReg rd w := by
  simp only [idenc, bind_eq_ok, pure_eq_ok, @eq_comm _ t]

/-- Everything a successful header assembly says (43_object_codec.md R108). -/
theorem encHeader_ok_iff {lay : ObjLayout} {kind : ObjKind} {cfg : Word} {f : Frame} {w0 w1 : Word} :
    encHeader lay kind cfg f = .ok (w0, w1) ↔
      f.ide.toNat ≤ 1 ∧ idEncode lay f.id (idKindOf f.ide) = .ok w0 ∧
        (f.rtr.toNat ≤ 1 ∧ f.brs.toNat ≤ 1 ∧ f.fdf.toNat ≤ 1 ∧ f.esi.toNat ≤ 1) ∧ f.dlc.toNat ≤ 15 ∧
        ∃ tag, encTag lay cfg f kind = .ok tag ∧ w1 = commonFlags lay f ||| tag := by
  simp only [encHeader, bind_eq_ok, require_eq_ok, pure_eq_ok, Prod.mk.injEq]
  constructor
  · rintro ⟨_, h1, a, h2, _, h3, _, h4, tag, h5, rfl, rfl⟩
    exact ⟨h1, h2, h3, h4, tag, h5, rfl⟩
  · rintro ⟨h1, h2, h3, h4, tag, h5, rfl⟩
    exact ⟨(), h1, w0, h2, (), h3, (), h4, tag, h5, rfl, rfl⟩

theorem encTag_ok_iff {lay : ObjLayout} {cfg : Word} {f : Frame} {kind : ObjKind} {tag : Word} :
    encTag lay cfg f kind = .ok tag ↔
      if kind = .rx then f.filhit.toNat ≤ 31 ∧ tag = f.filhit <<< lay.filhit
      else f.seq.toNat < 2 ^ seqBits cfg ∧ tag = f.seq <<< lay.seq := by
  have hm : (mask (seqBits cfg)).toNat = 2 ^ seqBits cfg - 1 :=
    mask_toNat (le_trans (seqBits_le cfg) (by decide))
  have hp : 1 ≤ 2 ^ seqBits cfg := Nat.one_le_two_pow
  cases kind <;>
    simp only [encTag, bind_eq_ok, require_eq_ok, pure_eq_ok, exists_const, hm, @eq_comm _ tag, if_true,
      reduceCtorEq, if_false]
  all_goals
    rw [show f.seq.toNat ≤ 2 ^ seqBits cfg - 1 ↔ f.seq.toNat < 2 ^ seqBits cfg by omega]

theorem payloadCheck_ok_iff {f : Frame} {p : Nat} {u : Unit} :
    payloadCheck f p = .ok u ↔ f.len.toNat ≤ dlcLen f.dlc.toNat ∧ dlcLen f.dlc.toNat ≤ p := by
  simp [payloadCheck, bind_eq_ok]

theorem encTx_ok_iff {pls : Fin 8} {s t : State} :
    encTx pls s = .ok t ↔
      ∃ w0 w1, encHeader s.layout .tx s.cfg s.frame = .ok (w0, w1) ∧
        s.frame.len.toNat ≤ dlcLen s.frame.dlc.toNat ∧ dlcLen s.frame.dlc.toNat ≤ plsLen pls ∧
        t = s.storeImage (wordBytes w0 ++ wordBytes w1 ++ payloadBytes s.data s.frame.len.toNat (plsLen pls))
          (8 + plsLen pls) := by
  simp only [encTx, bind_eq_ok, payloadCheck_ok_iff, pure_eq_ok, headerSize]
  constructor
  · rintro ⟨⟨w0, w1⟩, h, _, h2, rfl⟩
    exact ⟨w0, w1, h, h2.1, h2.2, rfl⟩
  · rintro ⟨w0, w1, h, h1, h2, rfl⟩
    exact ⟨(w0, w1), h, (), ⟨h1, h2⟩, rfl⟩

theorem encRx_ok_iff {pls : Fin 8} {s t : State} :
    encRx pls s = .ok t ↔
      ∃ w0 w1, encHeader s.layout .rx s.cfg s.frame = .ok (w0, w1) ∧
        s.frame.len.toNat ≤ dlcLen s.frame.dlc.toNat ∧ dlcLen s.frame.dlc.toNat ≤ plsLen pls ∧
        t = s.storeImage (wordBytes w0 ++ wordBytes w1 ++ wordBytes s.frame.ts ++
          payloadBytes s.data s.frame.len.toNat (plsLen pls)) (12 + plsLen pls) := by
  simp only [encRx, bind_eq_ok, payloadCheck_ok_iff, pure_eq_ok, headerSize]
  constructor
  · rintro ⟨⟨w0, w1⟩, h, _, h2, rfl⟩
    exact ⟨w0, w1, h, h2.1, h2.2, rfl⟩
  · rintro ⟨w0, w1, h, h1, h2, rfl⟩
    exact ⟨(w0, w1), h, (), ⟨h1, h2⟩, rfl⟩

theorem encTef_ok_iff {s t : State} :
    encTef s = .ok t ↔
      ∃ w0 w1, encHeader s.layout .tef s.cfg s.frame = .ok (w0, w1) ∧
        t = s.storeImage (wordBytes w0 ++ wordBytes w1 ++ wordBytes s.frame.ts) 12 := by
  simp only [encTef, bind_eq_ok, pure_eq_ok, headerSize]
  constructor
  · rintro ⟨⟨w0, w1⟩, h, rfl⟩
    exact ⟨w0, w1, h, rfl⟩
  · rintro ⟨w0, w1, h, rfl⟩
    exact ⟨(w0, w1), h, rfl⟩

/-- Everything a successful header parse says (43_object_codec.md R112). -/
theorem decHeader_ok_iff {lay : ObjLayout} {kind : ObjKind} {objlen : Word} {obj : Memory} {h : Header} :
    decHeader lay kind objlen obj = .ok h ↔
      objlen.toNat ≤ 76 ∧ headerSize kind ≤ objlen.toNat ∧ (kind = .tef ∨ headerSize kind + h.len ≤ objlen.toNat) ∧
        h.w0 = obj.readWord 0 ∧ h.w1 = obj.readWord 4 ∧ h.dlc = extractField h.w1 lay.dlc 4 ∧
        h.len = dlcLen h.dlc.toNat ∧ h.ide = extractField h.w1 lay.ide 1 := by
  simp only [decHeader, bind_eq_ok, require_eq_ok, pure_eq_ok]
  constructor
  · rintro ⟨_, h1, _, h2, _, h3, rfl⟩
    exact ⟨h1, h2, h3, rfl, rfl, rfl, rfl, rfl⟩
  · obtain ⟨w0, w1, dlc, len, ide⟩ := h
    simp only
    rintro ⟨h1, h2, h3, rfl, rfl, rfl, rfl, rfl⟩
    exact ⟨(), h1, (), h2, (), h3, rfl⟩

theorem decTx_ok_iff {s t : State} :
    decTx s = .ok t ↔ ∃ h, decHeader s.layout .tx s.objlen s.obj = .ok h ∧
      t = { s.loadPayload .tx h.len with
        frame := { s.frame.withHeader s.layout h with
          seq := extractField h.w1 s.layout.seq (seqBits s.cfg), len := BitVec.ofNat 32 h.len } } := by
  simp only [decTx, bind_eq_ok, pure_eq_ok, @eq_comm _ t]

theorem decRx_ok_iff {s t : State} :
    decRx s = .ok t ↔ ∃ h, decHeader s.layout .rx s.objlen s.obj = .ok h ∧
      t = { s.loadPayload .rx h.len with
        frame := { s.frame.withHeader s.layout h with
          filhit := extractField h.w1 s.layout.filhit 5, ts := s.obj.readWord 8, len := BitVec.ofNat 32 h.len } } := by
  simp only [decRx, bind_eq_ok, pure_eq_ok, @eq_comm _ t]

theorem decTef_ok_iff {s t : State} :
    decTef s = .ok t ↔ ∃ h, decHeader s.layout .tef s.objlen s.obj = .ok h ∧
      t = { s with
        frame := { s.frame.withHeader s.layout h with
          seq := extractField h.w1 s.layout.seq (seqBits s.cfg), ts := s.obj.readWord 8 } } := by
  simp only [decTef, bind_eq_ok, pure_eq_ok, @eq_comm _ t]

/-! ### What no effect does -/

/-- A successful command leaves CMD, STATUS, CFG, the layout and the host's side of the port to its end (10_state.md R22,
R24). -/
theorem effect_keeps {i : Instr} {s t : State} (h : effect i s = .ok t) :
    t.cmd = s.cmd ∧ t.status = s.status ∧ t.cfg = s.cfg ∧ t.layout = s.layout ∧ t.pending = s.pending ∧
      t.replies = s.replies := by
  cases i <;>
    simp only [effect, extf_ok_iff, insf_ok_iff, dlc2len_ok_iff, len2dlc_ok_iff, pls2len_ok_iff, idenc_ok_iff,
      encTx_ok_iff, encRx_ok_iff, encTef_ok_iff, decTx_ok_iff, decRx_ok_iff, decTef_ok_iff, Except.ok.injEq] at h
  case nop => subst h; simp
  case extf => obtain ⟨_, rfl⟩ := h; simp
  case insf => obtain ⟨_, _, rfl⟩ := h; simp
  case mskupd => subst h; simp
  case dlc2len => obtain ⟨_, rfl⟩ := h; simp
  case len2dlc => obtain ⟨_, _, rfl⟩ := h; simp
  case pls2len => obtain ⟨_, rfl⟩ := h; simp
  case idenc => obtain ⟨_, _, rfl⟩ := h; simp
  case iddec => subst h; simp
  case enctx => obtain ⟨_, _, _, _, _, rfl⟩ := h; simp
  case encrx => obtain ⟨_, _, _, _, _, rfl⟩ := h; simp
  case enctef => obtain ⟨_, _, _, rfl⟩ := h; simp
  case dectx => obtain ⟨_, _, rfl⟩ := h; simp
  case decrx => obtain ⟨_, _, rfl⟩ := h; simp
  case dectef => obtain ⟨_, _, rfl⟩ := h; simp

/-! ### Payloads -/

theorem plsLen_le (k : Fin 8) : plsLen k ≤ 64 := by
  revert k
  decide

theorem dlcLen_le (d : Nat) : dlcLen d ≤ 64 := by
  by_cases h : d < 16
  · interval_cases d <;> decide
  · simp [dlcLen, dlcLenTable, List.getD, List.getElem?_eq_none (show [0, 1, 2, 3, 4, 5, 6, 7, 8, 12, 16, 20, 24, 32, 48,
      64].length ≤ d by simpa using h)]

@[simp] theorem payloadBytes_length {data : Memory} {n p : Nat} (h : n ≤ p) :
    (payloadBytes data n p).length = p := by
  simp [payloadBytes]
  omega

/-- Payload byte `k`: the data byte, or the pad from `n` on (43_object_codec.md R107). -/
theorem payloadBytes_getElem {data : Memory} {n p k : Nat} (h : k < (payloadBytes data n p).length) :
    (payloadBytes data n p)[k] = if k < n then data.read k else padByte data n := by
  simp only [payloadBytes, List.getElem_append, Memory.readBytes_length]
  split
  · simp
  · simp

end Sys2Proof.Machine
end

