-- ==== Sys2Proof/Laws/Decode.lean ====
section
/-! SUPPORT. What the fields of a command word are when the word is built by the encoder's pieces: every piece lands in its
own field and in no other. -/

namespace Sys2Proof

theorem extractField_or (a b : Word) (s n : Nat) :
    extractField (a ||| b) s n = extractField a s n ||| extractField b s n := by
  simp only [extractField, BitVec.ushiftRight_or_distrib, BitVec.and_comm _ (mask n), BitVec.and_or_distrib_left]

theorem slice_or (a b : Word) (hi lo : Nat) : slice (a ||| b) hi lo = slice a hi lo ||| slice b hi lo :=
  extractField_or a b lo _

theorem or_and_fixed (a b m : Word) : (a ||| b) &&& m = (a &&& m) ||| (b &&& m) := by
  simp only [BitVec.and_comm _ m, BitVec.and_or_distrib_left]

/-! The pieces of a command word, read back through each field. -/

theorem regBits_slices_5 (r : Reg) :
    slice (regBits r 5) 4 0 = 0 ∧ slice (regBits r 5) 7 5 = BitVec.ofNat 32 r.val ∧ slice (regBits r 5) 10 8 = 0 ∧
      slice (regBits r 5) 13 11 = 0 ∧ slice (regBits r 5) 15 11 = 0 ∧ slice (regBits r 5) 21 16 = 0 ∧
      slice (regBits r 5) 11 11 = 0 := by
  revert r
  decide

theorem regBits_slices_8 (r : Reg) :
    slice (regBits r 8) 4 0 = 0 ∧ slice (regBits r 8) 7 5 = 0 ∧ slice (regBits r 8) 10 8 = BitVec.ofNat 32 r.val ∧
      slice (regBits r 8) 13 11 = 0 ∧ slice (regBits r 8) 15 11 = 0 ∧ slice (regBits r 8) 21 16 = 0 ∧
      slice (regBits r 8) 11 11 = 0 := by
  revert r
  decide

theorem regBits_slices_11 (r : Reg) :
    slice (regBits r 11) 4 0 = 0 ∧ slice (regBits r 11) 7 5 = 0 ∧ slice (regBits r 11) 10 8 = 0 ∧
      slice (regBits r 11) 13 11 = BitVec.ofNat 32 r.val := by
  revert r
  decide

theorem natBits_slices_11 : ∀ shift : Fin 32,
    slice (natBits shift 11) 4 0 = 0 ∧ slice (natBits shift 11) 7 5 = 0 ∧ slice (natBits shift 11) 10 8 = 0 ∧
      slice (natBits shift 11) 15 11 = BitVec.ofNat 32 shift.val ∧ slice (natBits shift 11) 21 16 = 0 ∧
      natBits shift 11 &&& 0xFFC0001F = 0 := by
  decide

theorem natBits_slices_16 : ∀ width : Fin 64,
    slice (natBits width 16) 4 0 = 0 ∧ slice (natBits width 16) 7 5 = 0 ∧ slice (natBits width 16) 10 8 = 0 ∧
      slice (natBits width 16) 15 11 = 0 ∧ slice (natBits width 16) 21 16 = BitVec.ofNat 32 width.val ∧
      natBits width 16 &&& 0xFFC0001F = 0 := by
  decide

/-- No register field holds a bit of its format's fixed-bit mask. -/
theorem regBits_fixed (r : Reg) :
    regBits r 5 &&& 0xFFC0001F = 0 ∧ regBits r 8 &&& 0xFFC0001F = 0 ∧ regBits r 5 &&& 0xFFFFC01F = 0 ∧
      regBits r 8 &&& 0xFFFFC01F = 0 ∧ regBits r 11 &&& 0xFFFFC01F = 0 ∧ regBits r 5 &&& 0xFFFFF81F = 0 ∧
      regBits r 8 &&& 0xFFFFF81F = 0 ∧ regBits r 5 &&& 0xFFFFF01F = 0 ∧ regBits r 8 &&& 0xFFFFF01F = 0 ∧
      regBits r 5 &&& 0xFFFFFF1F = 0 := by
  revert r
  decide

/-- Everything an accepted word says. -/
theorem accept_ok_iff {fmt : Format} {op c : Word} {i j : Instr} :
    accept fmt op c i = .ok j ↔ c &&& fmt.fixedMask = op ∧ j = i := by
  unfold accept
  split <;> simp_all [eq_comm]

end Sys2Proof
end

