-- ==== Sys2Proof/Laws/HostPort.lean ====
section
/-! SUPPORT. The MMIO map both ways, and what stands at every mapped offset after a host write. -/

namespace Sys2Proof.Machine

theorem frameRegAt_offset (f : FrameReg) : frameRegAt f.offset = some f := by
  cases f <;> rfl

theorem frameRegAt_eq_some {n : Nat} {f : FrameReg} (h : frameRegAt n = some f) : n = f.offset := by
  unfold frameRegAt at h
  split at h <;> simp_all <;> subst h <;> rfl

theorem FrameReg.offset_range (f : FrameReg) : 0x040 ≤ f.offset ∧ f.offset ≤ 0x068 ∧ f.offset % 4 = 0 := by
  cases f <;> decide

theorem Loc.offset_lt (loc : Loc) : loc.offset < 2 ^ 12 := by
  cases loc with
  | frame f =>
    have := f.offset_range
    simp only [Loc.offset]
    omega
  | _ => simp only [Loc.offset]; omega

theorem Loc.offset_mod (loc : Loc) : loc.offset % 4 = 0 := by
  cases loc with
  | frame f => exact f.offset_range.2.2
  | _ => simp only [Loc.offset] <;> omega

theorem locAt_offset (loc : Loc) : locAt loc.offset = some loc := by
  cases loc with
  | cmd => rfl
  | status => rfl
  | cfg => rfl
  | objlen => rfl
  | gpr r => revert r; decide
  | frame f => cases f <;> rfl
  | data k => revert k; decide
  | obj k => revert k; decide

theorem locAt_eq_some {n : Nat} {loc : Loc} (hn : n % 4 = 0) (h : locAt n = some loc) : n = loc.offset := by
  unfold locAt at h
  split at h
  · cases h; simpa [Loc.offset]
  split at h
  · cases h; simpa [Loc.offset]
  split at h
  · cases h; simpa [Loc.offset]
  split at h
  · cases h; simpa [Loc.offset]
  split at h
  · cases h
    simp only [Loc.offset, Fin.ofNat]
    omega
  split at h
  · cases hf : frameRegAt n with
    | none => simp [hf] at h
    | some f =>
      simp only [hf, Option.map_some, Option.some.injEq] at h
      subst h
      exact frameRegAt_eq_some hf
  split at h
  · cases h
    simp only [Loc.offset, Fin.ofNat]
    omega
  split at h
  · cases h
  split at h
  · cases h
    simp only [Loc.offset, Fin.ofNat]
    omega
  · cases h

/-- Admission, both ways: which accesses R45 allows and where they land (20_memory.md R41, R45). -/
theorem mappedAt_ok_iff {width : AccessWidth} {offset : BitVec 12} {loc : Loc} :
    mappedAt width offset = .ok loc ↔ width = .w32 ∧ offset.toNat = loc.offset := by
  unfold mappedAt
  split
  · next h => simp [h]
  split
  · next h =>
    simp only [reduceCtorEq, false_iff, not_and]
    intro _ heq
    exact h (heq ▸ loc.offset_mod)
  · next hw hm =>
    have hw' : width = .w32 := by simpa using hw
    have hm' : offset.toNat % 4 = 0 := by simpa using hm
    split
    · next l hl =>
      have := locAt_eq_some hm' hl
      simp only [Except.ok.injEq, hw', true_and]
      constructor
      · rintro rfl
        exact this
      · intro heq
        rw [heq, locAt_offset] at hl
        exact (Option.some.inj hl).symm
    · next hl =>
      simp only [reduceCtorEq, hw', true_and, false_iff]
      intro heq
      rw [heq, locAt_offset] at hl
      cases hl

theorem mappedAt_offset (loc : Loc) : mappedAt .w32 (BitVec.ofNat 12 loc.offset) = .ok loc := by
  rw [mappedAt_ok_iff]
  exact ⟨rfl, by rw [BitVec.toNat_ofNat, Nat.mod_eq_of_lt loc.offset_lt]⟩

theorem Loc.offset_injective {l l' : Loc} (h : l.offset = l'.offset) : l = l' := by
  have := locAt_offset l
  rw [h, locAt_offset] at this
  exact (Option.some.inj this).symm

/-- Reading one word of a buffer after writing another leaves it as it was. -/
theorem Memory.readWord_writeWord_other (m : Memory) {a b : Nat} (w : Word) (h : b + 4 ≤ a ∨ a + 4 ≤ b) :
    (m.writeWord a w).readWord b = m.readWord b :=
  Memory.readWord_congr fun c h1 h2 => m.read_writeWord_outside w (by omega)

/-- What a host write leaves at every offset of the map but CMD's, STATUS's and CFG's own (20_memory.md R46). -/
theorem State.readLoc_writeLoc (s : State) (loc other : Loc) (v : Word) (h1 : loc ≠ .status) (h2 : loc ≠ .cfg) :
    (s.writeLoc loc v).readLoc other = if other = loc then v else s.readLoc other := by
  cases loc with
  | cmd => cases other <;> simp [State.writeLoc, State.readLoc, State.reg]
  | status => exact absurd rfl h1
  | cfg => exact absurd rfl h2
  | objlen => cases other <;> simp [State.writeLoc, State.readLoc, State.reg]
  | gpr r =>
    cases other <;> simp [State.writeLoc, State.readLoc, State.reg_setReg]
  | frame f =>
    cases other with
    | frame g =>
      by_cases hg : g = f
      · subst hg
        simp [State.writeLoc, State.readLoc]
      · simp [State.writeLoc, State.readLoc, Frame.get_set_other _ _ hg, hg]
    | _ => simp [State.writeLoc, State.readLoc, State.reg]
  | data k =>
    cases other with
    | data l =>
      by_cases hl : l = k
      · subst hl
        simp [State.writeLoc, State.readLoc]
      · have : l.val ≠ k.val := fun h => hl (Fin.ext h)
        simp only [State.writeLoc, State.readLoc, Loc.data.injEq, hl, if_false]
        exact Memory.readWord_writeWord_other _ _ (by omega)
    | _ => simp [State.writeLoc, State.readLoc, State.reg]
  | obj k =>
    cases other with
    | obj l =>
      by_cases hl : l = k
      · subst hl
        simp [State.writeLoc, State.readLoc]
      · have : l.val ≠ k.val := fun h => hl (Fin.ext h)
        simp only [State.writeLoc, State.readLoc, Loc.obj.injEq, hl, if_false]
        exact Memory.readWord_writeWord_other _ _ (by omega)
    | _ => simp [State.writeLoc, State.readLoc, State.reg]

/-- A host write touches neither the accesses still to come nor the answers given nor the layout. -/
theorem State.writeLoc_port (s : State) (loc : Loc) (v : Word) :
    (s.writeLoc loc v).pending = s.pending ∧ (s.writeLoc loc v).replies = s.replies ∧
      (s.writeLoc loc v).layout = s.layout := by
  cases loc <;> exact ⟨rfl, rfl, rfl⟩

end Sys2Proof.Machine
end

