-- ==== Sys2Proof/Laws/Object.lean ====
section
/-! SUPPORT. The object codec under any non-overlapping layout as arithmetic: the identifier word, the flags word, the header
checks, and reading an image back; and the two ends of a command as Safety.lean writes them. -/

namespace Sys2Proof.Machine

/-! ### The two ends of a command -/

theorem State.done_eq_endedOk (s : State) : s.done = s.endedOk := by
  simp only [State.done, State.endedOk, statusDone_eq]

theorem State.raise_eq_endedWith (s : State) (e : Err) : s.raise e = s.endedWith e.code.toNat := by
  simp only [State.raise, State.endedWith, statusRaise_eq, BitVec.or_assoc]
  cases e <;> rfl

/-! ### The identifier word -/

theorem idEncode_standard {lay : ObjLayout} {id : Word} (h : id.toNat < 2 ^ 11) :
    idEncode lay id .standard = .ok (id <<< lay.sid) := by
  simp [idEncode, require_true _ (show id.toNat ≤ 0x7FF by omega), pure, Except.pure]

theorem idEncode_extended {lay : ObjLayout} {id : Word} (h : id.toNat < 2 ^ 29) :
    idEncode lay id .extended = .ok ((slice id 28 18 <<< lay.sid) ||| (slice id 17 0 <<< lay.eid)) := by
  simp [idEncode, require_true _ (show id.toNat ≤ 0x1FFFFFFF by omega), pure, Except.pure]

theorem slice_eid_toNat (id : Word) : (slice id 17 0).toNat = id.toNat % 2 ^ 18 := by
  have : (slice id 17 0).toNat = id.toNat / 2 ^ 0 % 2 ^ 18 := extractField_toNat _ _ (by decide)
  rw [this]
  simp

theorem slice_sid_toNat {id : Word} (h : id.toNat < 2 ^ 29) : (slice id 28 18).toNat = id.toNat / 2 ^ 18 := by
  have : (slice id 28 18).toNat = id.toNat / 2 ^ 18 % 2 ^ 11 := extractField_toNat _ _ (by decide)
  omega

/-- SID and EID lie in the word and do not overlap. -/
theorem idFields_ok {lay : ObjLayout} (h : lay.NonOverlapping) :
    lay.sid + 11 ≤ 32 ∧ lay.eid + 18 ≤ 32 ∧ (lay.sid + 11 ≤ lay.eid ∨ lay.eid + 18 ≤ lay.sid) := by
  obtain ⟨⟨h1, h2⟩, -⟩ := h
  simpa [ObjLayout.idFields, and_assoc] using And.intro h1 h2

/-- The extended identifier word as a number. -/
theorem idWord_extended_toNat {lay : ObjLayout} {id : Word} (hlay : lay.NonOverlapping) (h : id.toNat < 2 ^ 29) :
    ((slice id 28 18 <<< lay.sid) ||| (slice id 17 0 <<< lay.eid)).toNat =
      2 ^ lay.sid * (id.toNat / 2 ^ 18) + 2 ^ lay.eid * (id.toNat % 2 ^ 18) := by
  obtain ⟨h1, h2, h3⟩ := idFields_ok hlay
  have e1 : (slice id 28 18).toNat < 2 ^ 11 := extractField_lt _ _ (by decide)
  have e2 : (slice id 17 0).toNat < 2 ^ 18 := extractField_lt _ _ (by decide)
  rw [or_toNat_of_disjoint (shiftLeft_disjoint e1 e2 h3), shiftLeft_toNat h1 e1, shiftLeft_toNat h2 e2,
    slice_sid_toNat h, slice_eid_toNat]

/-- SID and EID of a word under any layout (42_identifier.md R92). -/
theorem slice_sid (lay : ObjLayout) (w : Word) : slice w (lay.sid + 10) lay.sid = extractField w lay.sid 11 := by
  rw [slice, show lay.sid + 10 - lay.sid + 1 = 11 by omega]

theorem slice_eid (lay : ObjLayout) (w : Word) : slice w (lay.eid + 17) lay.eid = extractField w lay.eid 18 := by
  rw [slice, show lay.eid + 17 - lay.eid + 1 = 18 by omega]

/-- The upper 11 and the lower 18 bits of an identifier as a number. -/
theorem idParts_toNat {a b : Word} (ha : a.toNat < 2 ^ 11) (hb : b.toNat < 2 ^ 18) :
    ((a <<< 18) ||| b).toNat = a.toNat * 2 ^ 18 + b.toNat := by
  have h := or_toNat_of_disjoint (shiftLeft_disjoint (s := 18) (t := 0) ha hb (by decide))
  rw [BitVec.shiftLeft_zero, shiftLeft_toNat (show 18 + 11 ≤ 32 by decide) ha] at h
  omega

theorem idDecode_toNat (lay : ObjLayout) (w ide : Word) :
    (idDecode lay w (idKindOf ide)).toNat = idOfWordNat lay w.toNat ide.toNat := by
  by_cases hz : ide = 0
  · subst hz
    simp only [idKindOf, if_true, idDecode, idOfWordNat, slice_sid]
    exact extractField_toNat _ _ (by decide)
  · have hn : ide.toNat ≠ 0 := fun h => hz (BitVec.eq_of_toNat_eq h)
    simp only [idKindOf, hz, if_false, idDecode, idOfWordNat, hn, slice_sid, slice_eid]
    rw [idParts_toNat (extractField_lt _ _ (by decide)) (extractField_lt _ _ (by decide)),
      extractField_toNat _ _ (by decide), extractField_toNat _ _ (by decide)]

/-! ### The flags word

Six common fields and a tag of width `n` at `start`: the word as a number, and every field read back. -/

/-- Every value fits its field of the flags word. -/
structure FlagsFit (f : Frame) (tag : Word) (n : Nat) : Prop where
  dlc : f.dlc.toNat < 2 ^ 4
  ide : f.ide.toNat < 2 ^ 1
  rtr : f.rtr.toNat < 2 ^ 1
  brs : f.brs.toNat < 2 ^ 1
  fdf : f.fdf.toNat < 2 ^ 1
  esi : f.esi.toNat < 2 ^ 1
  tag : tag.toNat < 2 ^ n

theorem flagsWord_toNat {lay : ObjLayout} {f : Frame} {tag : Word} {start n : Nat}
    (hlay : ObjLayout.FieldsOk (lay.commonFields ++ [(start, n)])) (h : FlagsFit f tag n) :
    (commonFlags lay f ||| tag <<< start).toNat =
      2 ^ lay.dlc * f.dlc.toNat + 2 ^ lay.ide * f.ide.toNat + 2 ^ lay.rtr * f.rtr.toNat + 2 ^ lay.brs * f.brs.toNat +
        2 ^ lay.fdf * f.fdf.toNat + 2 ^ lay.esi * f.esi.toNat + 2 ^ start * tag.toNat := by
  obtain ⟨g0, g1, g2, g3, g4, g5, g6⟩ := h
  simp only [ObjLayout.FieldsOk, ObjLayout.commonFields, List.cons_append, List.nil_append, List.pairwise_cons,
    List.mem_cons, List.not_mem_nil, or_false, forall_eq_or_imp, forall_eq] at hlay
  obtain ⟨⟨a0, a1, a2, a3, a4, a5, a6⟩, ⟨b1, b2, b3, b4, b5, b6⟩, ⟨c2, c3, c4, c5, c6⟩, ⟨d3, d4, d5, d6⟩,
    ⟨e4, e5, e6⟩, ⟨k5, k6⟩, m6, -⟩ := hlay
  have sd {v w : Word} {s n t k : Nat} (hv : v.toNat < 2 ^ n) (hw : w.toNat < 2 ^ k) (h : s + n ≤ t ∨ t + k ≤ s) :=
    shiftLeft_disjoint hv hw h
  rw [commonFlags,
    or_toNat_of_disjoint (or_disjoint (or_disjoint (or_disjoint (or_disjoint (or_disjoint (sd g0 g6 b6) (sd g1 g6 c6))
      (sd g2 g6 d6)) (sd g3 g6 e6)) (sd g4 g6 k6)) (sd g5 g6 m6)),
    or_toNat_of_disjoint (or_disjoint (or_disjoint (or_disjoint (or_disjoint (sd g0 g5 b5) (sd g1 g5 c5))
      (sd g2 g5 d5)) (sd g3 g5 e5)) (sd g4 g5 k5)),
    or_toNat_of_disjoint (or_disjoint (or_disjoint (or_disjoint (sd g0 g4 b4) (sd g1 g4 c4)) (sd g2 g4 d4)) (sd g3 g4 e4)),
    or_toNat_of_disjoint (or_disjoint (or_disjoint (sd g0 g3 b3) (sd g1 g3 c3)) (sd g2 g3 d3)),
    or_toNat_of_disjoint (or_disjoint (sd g0 g2 b2) (sd g1 g2 c2)), or_toNat_of_disjoint (sd g0 g1 b1),
    shiftLeft_toNat a0 g0, shiftLeft_toNat a1 g1, shiftLeft_toNat a2 g2, shiftLeft_toNat a3 g3, shiftLeft_toNat a4 g4,
    shiftLeft_toNat a5 g5, shiftLeft_toNat a6 g6]

/-- A field of the flags word whose bits no other field has is read back. -/
theorem extractField_of_bits {w v : Word} {s n : Nat} (hs : s + n ≤ 32) (hv : v.toNat < 2 ^ n)
    (h : ∀ i, i < n → w.getLsbD (s + i) = (v <<< s).getLsbD (s + i)) : extractField w s n = v :=
  extractField_eq hs hv fun i hi => by rw [h i hi, getLsbD_shiftLeft_inside hs hi]

/-- Every field of the flags word comes back (43_object_codec.md R102, R103, R113 to R115); the tag may be narrower than
the room `width` it has. -/
theorem flagsWord_fields {lay : ObjLayout} {f : Frame} {tag : Word} {start width n : Nat}
    (hlay : ObjLayout.FieldsOk (lay.commonFields ++ [(start, width)])) (hn : n ≤ width) (h : FlagsFit f tag n) :
    let w := commonFlags lay f ||| tag <<< start
    extractField w lay.dlc 4 = f.dlc ∧ extractField w lay.ide 1 = f.ide ∧ extractField w lay.rtr 1 = f.rtr ∧
      extractField w lay.brs 1 = f.brs ∧ extractField w lay.fdf 1 = f.fdf ∧ extractField w lay.esi 1 = f.esi ∧
      ∀ m, m ≤ width → extractField w start m = extractField tag 0 m := by
  obtain ⟨g0, g1, g2, g3, g4, g5, g6⟩ := h
  have g6 : tag.toNat < 2 ^ width := lt_of_lt_of_le g6 (Nat.pow_le_pow_right (by decide) hn)
  simp only [ObjLayout.FieldsOk, ObjLayout.commonFields, List.cons_append, List.nil_append, List.pairwise_cons,
    List.mem_cons, List.not_mem_nil, or_false, forall_eq_or_imp, forall_eq] at hlay
  obtain ⟨⟨a0, a1, a2, a3, a4, a5, a6⟩, ⟨b1, b2, b3, b4, b5, b6⟩, ⟨c2, c3, c4, c5, c6⟩, ⟨d3, d4, d5, d6⟩,
    ⟨e4, e5, e6⟩, ⟨k5, k6⟩, m6, -⟩ := hlay
  have sd {v : Word} {s n t k i : Nat} (hv : v.toNat < 2 ^ n) (h : s + n ≤ t ∨ t + k ≤ s) (hi : i < k) :=
    getLsbD_shiftLeft_disjoint hv h hi
  intro w
  refine ⟨extractField_of_bits a0 g0 fun i hi => ?_, extractField_of_bits a1 g1 fun i hi => ?_,
    extractField_of_bits a2 g2 fun i hi => ?_, extractField_of_bits a3 g3 fun i hi => ?_,
    extractField_of_bits a4 g4 fun i hi => ?_, extractField_of_bits a5 g5 fun i hi => ?_, fun m hm => ?_⟩
  · simp only [w, commonFlags, BitVec.getLsbD_or, sd g1 b1.symm hi, sd g2 b2.symm hi, sd g3 b3.symm hi, sd g4 b4.symm hi,
      sd g5 b5.symm hi, sd g6 b6.symm hi, Bool.or_false]
  · simp only [w, commonFlags, BitVec.getLsbD_or, sd g0 b1 hi, sd g2 c2.symm hi, sd g3 c3.symm hi, sd g4 c4.symm hi,
      sd g5 c5.symm hi, sd g6 c6.symm hi, Bool.or_false, Bool.false_or]
  · simp only [w, commonFlags, BitVec.getLsbD_or, sd g0 b2 hi, sd g1 c2 hi, sd g3 d3.symm hi, sd g4 d4.symm hi,
      sd g5 d5.symm hi, sd g6 d6.symm hi, Bool.or_false, Bool.false_or]
  · simp only [w, commonFlags, BitVec.getLsbD_or, sd g0 b3 hi, sd g1 c3 hi, sd g2 d3 hi, sd g4 e4.symm hi,
      sd g5 e5.symm hi, sd g6 e6.symm hi, Bool.or_false, Bool.false_or]
  · simp only [w, commonFlags, BitVec.getLsbD_or, sd g0 b4 hi, sd g1 c4 hi, sd g2 d4 hi, sd g3 e4 hi, sd g5 k5.symm hi,
      sd g6 k6.symm hi, Bool.or_false, Bool.false_or]
  · simp only [w, commonFlags, BitVec.getLsbD_or, sd g0 b5 hi, sd g1 c5 hi, sd g2 d5 hi, sd g3 e5 hi, sd g4 k5 hi,
      sd g6 m6.symm hi, Bool.or_false, Bool.false_or]
  · apply BitVec.eq_of_getLsbD_eq
    intro i _
    rw [extractField_getLsbD _ _ _ (by omega), extractField_getLsbD _ _ _ (by omega), Nat.zero_add]
    by_cases him : i < m
    · have hi : i < width := lt_of_lt_of_le him hm
      simp only [w, commonFlags, BitVec.getLsbD_or, sd g0 b6 hi, sd g1 c6 hi, sd g2 d6 hi, sd g3 e6 hi, sd g4 k6 hi,
        sd g5 m6 hi, Bool.false_or, getLsbD_shiftLeft_inside a6 hi]
    · simp [him]

/-! ### The header checks -/

/-- What it means that an encoder finds no error (60_exceptions.md R134; 43_object_codec.md R108). -/
theorem encodeErrorCode_eq_zero_iff {kind : ObjKind} {pls : Fin 8} {s : State} :
    encodeErrorCode kind pls s = 0 ↔
      (s.frame.ide.toNat ≤ 1 ∧ (s.frame.ide.toNat = 0 → s.frame.id.toNat < 2 ^ 11) ∧
        (s.frame.ide.toNat = 1 → s.frame.id.toNat < 2 ^ 29)) ∧
      (s.frame.rtr.toNat ≤ 1 ∧ s.frame.brs.toNat ≤ 1 ∧ s.frame.fdf.toNat ≤ 1 ∧ s.frame.esi.toNat ≤ 1) ∧
      s.frame.dlc.toNat ≤ 15 ∧ (kind ≠ .rx → s.frame.seq.toNat < 2 ^ seqTagWidth s.cfg) ∧
      (kind = .rx → s.frame.filhit.toNat ≤ 31) ∧
      (kind ≠ .tef → s.frame.len.toNat ≤ dlcLen s.frame.dlc.toNat ∧ dlcLen s.frame.dlc.toNat ≤ plsLen pls) := by
  simp only [encodeErrorCode]
  constructor
  · intro h
    split at h; · cases h
    next h1 =>
    split at h; · cases h
    next h2 =>
    split at h; · cases h
    next h3 =>
    split at h; · cases h
    next h4 =>
    split at h; · cases h
    next h5 =>
    split at h; · cases h
    next h6 =>
    split at h; · cases h
    next h7 =>
    split at h; · cases h
    next h8 =>
    split at h; · cases h
    next h9 =>
    exact ⟨⟨by omega, by omega, by omega⟩, by omega, by omega, fun hk => Nat.lt_of_not_le fun h => h6 ⟨hk, h⟩,
      fun hk => Nat.le_of_not_lt fun h => h7 ⟨hk, h⟩,
      fun hk => ⟨Nat.le_of_not_lt fun h => h8 ⟨hk, h⟩, Nat.le_of_not_lt fun h => h9 ⟨hk, h⟩⟩⟩
  · rintro ⟨⟨h1, h2, h3⟩, h4, h5, h6, h7, h8⟩
    rw [if_neg (by omega), if_neg (by omega), if_neg (by omega), if_neg (by omega), if_neg (by omega),
      if_neg fun h => Nat.not_le.mpr (h6 h.1) h.2, if_neg fun h => Nat.not_lt.mpr (h7 h.1) h.2,
      if_neg fun h => Nat.not_lt.mpr (h8 h.1).1 h.2, if_neg fun h => Nat.not_lt.mpr (h8 h.1).2 h.2]

/-- The tag of an object kind: its value, where it starts, and its width. -/
def tagOf (lay : ObjLayout) (cfg : Word) (f : Frame) (kind : ObjKind) : Word × Nat × Nat :=
  if kind = .rx then (f.filhit, lay.filhit, 5) else (f.seq, lay.seq, seqBits cfg)

/-- Legal frame registers: the header is assembled, and its words are these. -/
theorem encHeader_of_code_zero {kind : ObjKind} {pls : Fin 8} {s : State} (h : encodeErrorCode kind pls s = 0) :
    ∃ w0, idEncode s.layout s.frame.id (idKindOf s.frame.ide) = .ok w0 ∧
      encHeader s.layout kind s.cfg s.frame =
        .ok (w0, commonFlags s.layout s.frame |||
          (tagOf s.layout s.cfg s.frame kind).1 <<< (tagOf s.layout s.cfg s.frame kind).2.1) ∧
      FlagsFit s.frame (tagOf s.layout s.cfg s.frame kind).1 (tagOf s.layout s.cfg s.frame kind).2.2 := by
  obtain ⟨⟨h1, h2, h3⟩, h4, h5, h6, h7, -⟩ := encodeErrorCode_eq_zero_iff.mp h
  have hid : ∃ w0, idEncode s.layout s.frame.id (idKindOf s.frame.ide) = .ok w0 := by
    by_cases hz : s.frame.ide = 0
    · rw [idKindOf, if_pos hz]
      exact ⟨_, idEncode_standard (h2 (by rw [hz]; rfl))⟩
    · have hn : s.frame.ide.toNat ≠ 0 := fun h => hz (BitVec.eq_of_toNat_eq h)
      rw [idKindOf, if_neg hz]
      exact ⟨_, idEncode_extended (h3 (by omega))⟩
  obtain ⟨w0, hw0⟩ := hid
  refine ⟨w0, hw0, encHeader_ok_iff.mpr ⟨h1, hw0, h4, h5, _, encTag_ok_iff.mpr ?_, rfl⟩,
    by omega, by omega, by omega, by omega, by omega, by omega, ?_⟩
  · by_cases hk : kind = .rx
    · rw [if_pos hk, tagOf, if_pos hk]
      exact ⟨h7 hk, rfl⟩
    · rw [if_neg hk, tagOf, if_neg hk, seqBits_eq]
      exact ⟨h6 hk, rfl⟩
  · by_cases hk : kind = .rx
    · rw [tagOf, if_pos hk]
      have := h7 hk
      show s.frame.filhit.toNat < 2 ^ 5
      omega
    · rw [tagOf, if_neg hk]
      show s.frame.seq.toNat < 2 ^ seqBits s.cfg
      rw [seqBits_eq]
      exact h6 hk

/-- Legal frame registers under a non-overlapping layout: the two header words as numbers. -/
theorem encHeader_words {kind : ObjKind} {pls : Fin 8} {s : State} (h : encodeErrorCode kind pls s = 0)
    (hlay : s.layout.NonOverlapping) :
    ∃ w0 w1, encHeader s.layout kind s.cfg s.frame = .ok (w0, w1) ∧ w0.toNat = idWordNat s.layout s.frame ∧
      w1.toNat = flagsWordNat s.layout kind s.frame := by
  obtain ⟨⟨h1, h2, h3⟩, -⟩ := encodeErrorCode_eq_zero_iff.mp h
  obtain ⟨w0, hw0, hh, hfit⟩ := encHeader_of_code_zero h
  refine ⟨_, _, hh, ?_, ?_⟩
  · by_cases hz : s.frame.ide = 0
    · have hn : s.frame.ide.toNat = 0 := by rw [hz]; rfl
      rw [idKindOf, if_pos hz, idEncode_standard (h2 hn)] at hw0
      cases hw0
      rw [idWordNat, if_pos hn, shiftLeft_toNat (idFields_ok hlay).1 (h2 hn)]
    · have hn : s.frame.ide.toNat ≠ 0 := fun h => hz (BitVec.eq_of_toNat_eq h)
      have hid := h3 (by omega)
      rw [idKindOf, if_neg hz, idEncode_extended hid] at hw0
      cases hw0
      rw [idWordNat, if_neg hn, idWord_extended_toNat hlay hid]
  · by_cases hk : kind = .rx
    · simp only [tagOf, if_pos hk] at hfit ⊢
      rw [flagsWord_toNat hlay.2.2 hfit, flagsWordNat, if_pos hk]
    · simp only [tagOf, if_neg hk] at hfit ⊢
      have hwide : FlagsFit s.frame s.frame.seq 23 :=
        { hfit with tag := lt_of_lt_of_le hfit.tag (Nat.pow_le_pow_right (by decide) (seqBits_le _)) }
      rw [flagsWord_toNat hlay.2.1 hwide, flagsWordNat, if_neg hk]

/-- A long enough image: the header parses, with the fields of the two header words. -/
theorem decHeader_of_code_zero {kind : ObjKind} {s : State} (h : decodeErrorCode kind s = 0) :
    ∃ hd, decHeader s.layout kind s.objlen s.obj = .ok hd ∧ hd.w0 = s.obj.readWord 0 ∧ hd.w1 = s.obj.readWord 4 ∧
      hd.dlc.toNat = (s.obj.readWord 4).toNat / 2 ^ s.layout.dlc % 16 ∧
      hd.len = dlcLen ((s.obj.readWord 4).toNat / 2 ^ s.layout.dlc % 16) ∧
      hd.ide.toNat = (s.obj.readWord 4).toNat / 2 ^ s.layout.ide % 2 := by
  have hd : (extractField (s.obj.readWord 4) s.layout.dlc 4).toNat =
      (s.obj.readWord 4).toNat / 2 ^ s.layout.dlc % 16 := extractField_toNat _ _ (by decide)
  have hi : (extractField (s.obj.readWord 4) s.layout.ide 1).toNat =
      (s.obj.readWord 4).toNat / 2 ^ s.layout.ide % 2 := extractField_toNat _ _ (by decide)
  have hk : headerSize kind = kind.headerBytes := by cases kind <;> rfl
  unfold decodeErrorCode at h
  split at h; · cases h
  next h1 =>
  split at h; · cases h
  next h2 =>
  split at h; · cases h
  next h3 =>
  refine ⟨⟨s.obj.readWord 0, s.obj.readWord 4, extractField (s.obj.readWord 4) s.layout.dlc 4,
      dlcLen (extractField (s.obj.readWord 4) s.layout.dlc 4).toNat, extractField (s.obj.readWord 4) s.layout.ide 1⟩,
    decHeader_ok_iff.mpr ⟨by omega, by omega, ?_, rfl, rfl, rfl, rfl, rfl⟩, rfl, rfl, hd, by rw [hd], hi⟩
  by_cases ht : kind = .tef
  · exact Or.inl ht
  · simp only [hd, hk]
    exact Or.inr (Nat.le_of_not_lt fun hlt => h3 ⟨ht, hlt⟩)

/-- The header parse reads OBJ below OBJLEN only (43_object_codec.md R112). -/
theorem decHeader_congr {lay : ObjLayout} {kind : ObjKind} {objlen : Word} {obj obj' : Memory}
    (h : ∀ a, a < objlen.toNat → obj'.read a = obj.read a) :
    decHeader lay kind objlen obj' = decHeader lay kind objlen obj := by
  unfold decHeader
  by_cases h1 : objlen.toNat ≤ Config.objBytes
  · rw [require_true _ h1, ok_bind, ok_bind]
    by_cases h2 : headerSize kind ≤ objlen.toNat
    · have : 8 ≤ headerSize kind := by cases kind <;> decide
      rw [Memory.readWord_congr (m := obj') (m' := obj) (a := 0) (fun b _ hb => h b (by omega)),
        Memory.readWord_congr (m := obj') (m' := obj) (a := 4) (fun b _ hb => h b (by omega))]
    · rw [require_false _ h2, error_bind, error_bind]
  · rw [require_false _ h1, error_bind, error_bind]

/-! ### Reading an image back -/

theorem Memory.readWord_image (m : Memory) (w : Word) (rest : List Byte) :
    (m.writeBytes 0 (wordBytes w ++ rest)).readWord 0 = w := by
  have := m.readWord_writeBytes (a := 0) (pre := []) (post := rest) w rfl
  simpa using this

theorem Memory.read_image (m : Memory) (header payload : List Byte) (a : Nat) (h : a < payload.length) :
    (m.writeBytes 0 (header ++ payload)).read (header.length + a) = payload[a] := by
  have := m.read_writeBytes_inside (a := 0) (k := header.length + a) (bs := header ++ payload) (by simpa using h)
  rw [Nat.zero_add] at this
  rw [this, List.getElem_append_right (by omega)]
  congr 1
  omega

/-- DATA after a payload was loaded: the object's payload bytes below its length, the old bytes from there on. -/
theorem State.read_loadPayload (s : State) (kind : ObjKind) (len a : Nat) :
    (s.loadPayload kind len).data.read a = if a < len then s.obj.read (headerSize kind + a) else s.data.read a := by
  simp only [State.loadPayload]
  generalize hbs : s.obj.readBytes (headerSize kind) len = bs
  have hl : bs.length = len := by rw [← hbs, Memory.readBytes_length]
  split
  · next h =>
    have hb : a < bs.length := by omega
    have := s.data.read_writeBytes_inside (a := 0) hb
    rw [Nat.zero_add] at this
    rw [this]
    subst hbs
    exact Memory.readBytes_getElem ..
  · exact Memory.read_writeBytes_outside _ (Or.inr (by omega))

end Sys2Proof.Machine
end

