-- ==== Sys2Proof/Laws/PerInstr.lean ====
section
/-! SUPPORT. The families of facts about commands as syntax, one lemma per constructor. -/

namespace Sys2Proof.Laws

/-- The opcode of a command (30_encoding.md R58). -/
def opcode : Instr → Nat
  | .nop => 0x00
  | .extf _ _ _ _ => 0x01
  | .insf _ _ _ _ => 0x02
  | .mskupd _ _ _ => 0x03
  | .dlc2len _ _ => 0x04
  | .len2dlc _ _ => 0x05
  | .pls2len _ _ => 0x06
  | .idenc _ _ _ => 0x07
  | .iddec _ _ _ => 0x08
  | .enctx _ => 0x10
  | .encrx _ => 0x11
  | .enctef => 0x12
  | .dectx => 0x14
  | .decrx => 0x15
  | .dectef => 0x16

end Sys2Proof.Laws

namespace Sys2Proof.Laws.EncodedOpcode

/-- The low five bits of a well-formed command's word are its opcode (30_encoding.md R56). -/
def Statement (i : Instr) : Prop := i.wf = true → opOf (encode i) = opcode i

theorem nop : Statement .nop := fun _ => by decide

theorem extf (rd rs : Reg) (shift width : Nat) : Statement (.extf rd rs shift width) := by
  intro h
  simp only [Instr.wf, descriptorEncodable, Bool.and_eq_true, decide_eq_true_eq] at h
  simp only [opcode, opOf, encode, slice_or, (regBits_slices_5 rd).1, (regBits_slices_8 rs).1,
    (natBits_slices_11 ⟨shift, h.1⟩).1,
    (natBits_slices_16 ⟨width, h.2⟩).1]
  decide

theorem insf (rd rs : Reg) (shift width : Nat) : Statement (.insf rd rs shift width) := by
  intro h
  simp only [Instr.wf, descriptorEncodable, Bool.and_eq_true, decide_eq_true_eq] at h
  simp only [opcode, opOf, encode, slice_or, (regBits_slices_5 rd).1, (regBits_slices_8 rs).1,
    (natBits_slices_11 ⟨shift, h.1⟩).1,
    (natBits_slices_16 ⟨width, h.2⟩).1]
  decide

theorem mskupd (rd rs rm : Reg) : Statement (.mskupd rd rs rm) := by
  intro _
  simp only [opcode, opOf, encode, slice_or, (regBits_slices_5 rd).1, (regBits_slices_8 rs).1, (regBits_slices_11 rm).1]
  decide

theorem dlc2len (rd rs : Reg) : Statement (.dlc2len rd rs) := by
  intro _
  simp only [opcode, opOf, encode, slice_or, (regBits_slices_5 rd).1, (regBits_slices_8 rs).1]
  decide

theorem len2dlc (rd rs : Reg) : Statement (.len2dlc rd rs) := by
  intro _
  simp only [opcode, opOf, encode, slice_or, (regBits_slices_5 rd).1, (regBits_slices_8 rs).1]
  decide

theorem pls2len (rd rs : Reg) : Statement (.pls2len rd rs) := by
  intro _
  simp only [opcode, opOf, encode, slice_or, (regBits_slices_5 rd).1, (regBits_slices_8 rs).1]
  decide

theorem idenc (rd rs : Reg) (x : IdKind) : Statement (.idenc rd rs x) := by
  intro _
  simp only [opcode, opOf, encode, slice_or, (regBits_slices_5 rd).1, (regBits_slices_8 rs).1]
  cases x <;> decide

theorem iddec (rd rs : Reg) (x : IdKind) : Statement (.iddec rd rs x) := by
  intro _
  simp only [opcode, opOf, encode, slice_or, (regBits_slices_5 rd).1, (regBits_slices_8 rs).1]
  cases x <;> decide

theorem enctx (pls : Fin 8) : Statement (.enctx pls) := by
  intro _
  simp only [opcode, opOf, encode, slice_or, (regBits_slices_5 pls).1]
  decide

theorem encrx (pls : Fin 8) : Statement (.encrx pls) := by
  intro _
  simp only [opcode, opOf, encode, slice_or, (regBits_slices_5 pls).1]
  decide

theorem enctef : Statement .enctef := fun _ => by decide

theorem dectx : Statement .dectx := fun _ => by decide

theorem decrx : Statement .decrx := fun _ => by decide

theorem dectef : Statement .dectef := fun _ => by decide

end Sys2Proof.Laws.EncodedOpcode
end

