-- ==== Sys2Proof/Tests/Slice0.lean ====
section
/-! SUPPORT. The model's own tests: ill-formed terms that the check refuses, words written out from spec/, one-step tests
whose expected values are those of 95_test_vectors.md, and a state that meets the hypotheses of each statement. -/

namespace Sys2Proof.Tests

open Sys2Proof.Machine

/-! ### Helpers -/

/-- The next state, none where the outcome is none. -/
def after : Host.Outcome State Fault Refusal → Option State
  | .next t => some t
  | .fault _ => none
  | .refused _ => none

/-- One step that runs the command word `c`. -/
def run (c : Nat) (s : State) : Option State := after (step (s.withFetchWord 32 c))

/-- The state after reset with R1, R2 and R3 loaded. -/
def withRegs (x1 x2 x3 : Word) : State := ((State.reset.setReg 1 x1).setReg 2 x2).setReg 3 x3

/-- The state after reset with these accesses pending. -/
def withPending (l : List HostAccess) : State := { State.reset with pending := l }

/-- The state after reset with these frame registers, DATA bytes from offset 0 on, and OBJ bytes from offset `a` on. -/
def withFrame (f : Frame) (data : List Byte) (a : Nat) (obj : List Byte) : State :=
  { State.reset with frame := f, data := Memory.writeBytes [] 0 data, obj := Memory.writeBytes [] a obj, objlen := 0x33 }

/-- The state after reset with this image in OBJ, its OBJLEN, and 0xEE in DATA[8] (section 2.5 of the vectors). -/
def withImage (image : List Byte) (objlen : Word) : State :=
  { State.reset with
    obj := Memory.writeBytes [] 0 image, objlen := objlen, data := [(8, 0xEE)],
    frame := { Frame.reset with seq := 0x5A, filhit := 0x1E, ts := 0x77, len := 0x63 } }

/-- A non-overlapping layout whose fields stand in another order than the default's. -/
def otherLayout : ObjLayout :=
  { sid := 21, eid := 0, dlc := 28, ide := 27, rtr := 26, brs := 25, fdf := 24, esi := 23, seq := 0, filhit := 3 }

/-- ERR and one general register after one command word. -/
def errAndReg (c : Nat) (r : Reg) (s : State) : Option (Word × Word) := (run c s).map fun t => (errOf t.status, t.reg r)

/-- ERR, OBJLEN and the first `n` bytes of OBJ after one command word. -/
def errAndImage (c n : Nat) (s : State) : Option (Word × Word × List Byte) :=
  (run c s).map fun t => (errOf t.status, t.objlen, t.obj.readBytes 0 n)

/-- ERR, the frame registers and the first 9 bytes of DATA after one command word. -/
def errAndFrame (c : Nat) (s : State) : Option (Word × Frame × List Byte) :=
  (run c s).map fun t => (errOf t.status, t.frame, t.data.readBytes 0 9)

/-! ### WellFormed refuses what has no encoding (30_encoding.md R56) -/

theorem test_wf_extf_shift : (Instr.extf 1 2 32 8).wf = false := by decide
theorem test_wf_extf_width : (Instr.extf 1 2 16 64).wf = false := by decide
theorem test_wf_insf_shift : (Instr.insf 1 2 32 8).wf = false := by decide
theorem test_wf_insf_width : (Instr.insf 1 2 16 64).wf = false := by decide
theorem test_wf_limits : (Instr.extf 7 7 31 63).wf = true ∧ (Instr.insf 7 7 31 63).wf = true := by decide

/-! ### Decoding words of 95_test_vectors.md -/

theorem test_decode_nop : decode 0x00000000 = .ok .nop := by decide
theorem test_decode_extf : decode 0x0001FA21 = .ok (.extf 1 2 31 1) := by decide
theorem test_decode_insf : decode 0x00042362 = .ok (.insf 3 3 4 4) := by decide
theorem test_decode_mskupd : decode 0x00001A23 = .ok (.mskupd 1 2 3) := by decide
theorem test_decode_dlc2len : decode 0x00000224 = .ok (.dlc2len 1 2) := by decide
theorem test_decode_len2dlc : decode 0x00000145 = .ok (.len2dlc 2 1) := by decide
theorem test_decode_pls2len : decode 0x00000226 = .ok (.pls2len 1 2) := by decide
theorem test_decode_idenc :
    decode 0x00000227 = .ok (.idenc 1 2 .standard) ∧ decode 0x00000A27 = .ok (.idenc 1 2 .extended) := by decide
theorem test_decode_iddec :
    decode 0x00000228 = .ok (.iddec 1 2 .standard) ∧ decode 0x00000A28 = .ok (.iddec 1 2 .extended) := by decide
theorem test_decode_enctx : decode 0x000000D0 = .ok (.enctx 6) := by decide
theorem test_decode_encrx : decode 0x000000F1 = .ok (.encrx 7) := by decide
theorem test_decode_enctef : decode 0x00000012 = .ok .enctef := by decide
theorem test_decode_dectx : decode 0x00000014 = .ok .dectx := by decide
theorem test_decode_decrx : decode 0x00000015 = .ok .decrx := by decide
theorem test_decode_dectef : decode 0x00000016 = .ok .dectef := by decide

/-- Vectors EC1 to EC5. -/
theorem test_decode_reserved_opcode :
    [0x09, 0x0F, 0x13, 0x17, 0x1F].map decode = List.replicate 5 (.error .reservedOpcode) := by decide

/-- Vectors EC6 to EC19. -/
theorem test_decode_reserved_bit :
    ([0x00000020, 0x80000000, 0x00400001, 0x80000002, 0x00004003, 0x00000804, 0x00001007, 0x00001008] ++
        [0x00000110, 0x00000112, 0x00000032, 0x00000114, 0x00000035, 0x00000036]).map decode =
      List.replicate 14 (.error .reservedBits) := by decide

/-- The host's two definitions run the table's word as the first command after reset. -/
theorem test_withFetchWord :
    decodeTableWord 32 0x00000224 = some (.dlc2len 1 2) ∧
      after (step (State.reset.withFetchWord 32 0x00000224)) =
        some { State.reset with cmd := 0x00000224 } := by decide

/-! ### One step of each command -/

/-- Vector HI5: NOP clears ERR and leaves ANYERR. -/
theorem test_nop : (run 0x00000000 { State.reset with status := 0x101 }).map State.status = some 0x100 := by decide

/-- Vector BF8. -/
theorem test_extf : errAndReg 0x0004E221 1 (withRegs 0xAAAAAAAA 0xDEADBEEF 0) = some (0, 0x0000000D) := by decide

/-- Vector BF10. -/
theorem test_extf_bad_field_spec :
    errAndReg 0x0005E221 1 (withRegs 0xAAAAAAAA 0xDEADBEEF 0) = some (2, 0xAAAAAAAA) := by decide

/-- Vector BF25: the source is also the destination. -/
theorem test_insf_same_register : errAndReg 0x00042362 3 (withRegs 0 0 0x00000005) = some (0, 0x00000055) := by decide

/-- Vector BF24: BAD_FIELD_SPEC comes before FIELD_RANGE. -/
theorem test_insf_priority :
    errAndReg 0x00210222 1 (withRegs 0x12345678 0xFFFFFFFF 0) = some (2, 0x12345678) := by decide

/-- Vector BF27. -/
theorem test_mskupd : errAndReg 0x00001A23 1 (withRegs 0xFFFF0000 0x12345678 0x0000FFFF) = some (0, 0xFFFF5678) := by decide

/-- Vectors DL16 and DL17. -/
theorem test_dlc2len :
    errAndReg 0x00000224 1 (withRegs 0xAAAA 15 0) = some (0, 64) ∧
      errAndReg 0x00000224 1 (withRegs 0xAAAA 16 0) = some (3, 0xAAAA) := by decide

/-- Vectors DL34 and DL36. -/
theorem test_len2dlc :
    errAndReg 0x00000225 1 (withRegs 0xAAAA 48 0) = some (0, 14) ∧
      errAndReg 0x00000225 1 (withRegs 0xAAAA 65 0) = some (4, 0xAAAA) := by decide

/-- Vectors DL43 and DL46. -/
theorem test_pls2len :
    errAndReg 0x00000226 1 (withRegs 0xAAAA 5 0) = some (0, 32) ∧
      errAndReg 0x00000226 1 (withRegs 0xAAAA 8 0) = some (3, 0xAAAA) := by decide

/-- Vectors IP5 and IP3. -/
theorem test_idenc :
    errAndReg 0x00000A27 1 (withRegs 0xAAAA 0x12345678 0) = some (0, 0x02B3C48D) ∧
      errAndReg 0x00000227 1 (withRegs 0xAAAA 0x800 0) = some (3, 0xAAAA) := by decide

/-- Vectors IP15 and IP14. -/
theorem test_iddec :
    errAndReg 0x00000A28 1 (withRegs 0xAAAA 0x02B3C48D 0) = some (0, 0x12345678) ∧
      errAndReg 0x00000228 1 (withRegs 0xAAAA 0x1FFFF923 0) = some (0, 0x123) := by decide

/-- Section 2.4, the full image of ENCTX 2 with F.DLC = 9 and F.LEN = 3, and the byte after it. -/
theorem test_enctx_pad :
    errAndImage 0x00000050 25 (withFrame { Frame.reset with dlc := 9, len := 3 } [0x10, 0x11, 0x12, 0x13] 24 [0xEE]) =
      some (0, 24, [0x00, 0x00, 0x00, 0x00, 0x09, 0x00, 0x00, 0x00, 0x10, 0x11, 0x12, 0x12, 0x12] ++
        [0x12, 0x12, 0x12, 0x12, 0x12, 0x12, 0x12, 0x12, 0x12, 0x12, 0x12, 0xEE]) := by decide

/-- Vector OC20: PAYLOAD_LEN comes before ELEMENT_OVERFLOW. -/
theorem test_enctx_payload_len :
    errAndImage 0x00000010 4 (withFrame { Frame.reset with dlc := 9, len := 13 } [] 0 [0xEE]) =
      some (5, 0x33, [0xEE, 0, 0, 0]) := by decide

/-- Vector OC23 with DATA = C0 C1 C2 and the byte after the image. -/
theorem test_encrx :
    errAndImage 0x00000011 21
        (withFrame { Frame.reset with id := 0x123, esi := 1, dlc := 3, filhit := 0x1F, ts := 0x89ABCDEF, len := 3 }
          [0xC0, 0xC1, 0xC2] 20 [0xEE]) =
      some (0, 20, [0x23, 0x01, 0x00, 0x00, 0x03, 0xF9, 0x00, 0x00, 0xEF, 0xCD, 0xAB, 0x89, 0xC0, 0xC1] ++
        [0xC2, 0xC2, 0xC2, 0xC2, 0xC2, 0xC2, 0xEE]) := by decide

/-- Vector OC24. -/
theorem test_encrx_filhit :
    errAndImage 0x00000011 1 (withFrame { Frame.reset with filhit := 0x20 } [] 0 [0xEE]) = some (3, 0x33, [0xEE]) := by
  decide

/-- Vector OC27 and the byte after the image. -/
theorem test_enctef :
    errAndImage 0x00000012 13
        (withFrame { Frame.reset with id := 0x12345678, ide := 1, brs := 1, fdf := 1, dlc := 0xF, seq := 0x2A, ts := 0x100,
                                      len := 0x63 } [] 12 [0xEE]) =
      some (0, 12, [0x8D, 0xC4, 0xB3, 0x02, 0xDF, 0x54, 0x00, 0x00, 0x00, 0x01, 0x00, 0x00, 0xEE]) := by decide

/-- Vector OC28. -/
theorem test_enctef_seq :
    errAndImage 0x00000012 1 (withFrame { Frame.reset with seq := 0x80 } [] 0 [0xEE]) = some (3, 0x33, [0xEE]) := by
  decide

/-- Vector OD7: the 23-bit sequence tag. -/
theorem test_dectx :
    errAndFrame 0x00000014
        { withImage [0xAF, 0x86, 0xF7, 0x06, 0x38, 0xFF, 0xFF, 0xFF, 0xA0, 0xA1, 0xA2, 0xA3, 0xA4, 0xA5, 0xA6, 0xA7] 16 with
          cfg := 1 } =
      some (0, { id := 0x1ABCDEF0, ide := 1, rtr := 1, brs := 0, fdf := 0, esi := 1, dlc := 8, seq := 0x7FFFFF,
                 filhit := 0x1E, ts := 0x77, len := 8 },
        [0xA0, 0xA1, 0xA2, 0xA3, 0xA4, 0xA5, 0xA6, 0xA7, 0xEE]) := by decide

/-- Vector OD2. -/
theorem test_dectx_size_mismatch :
    errAndFrame 0x00000014 (withImage [0x23, 0xF9, 0xFF, 0x3F, 0x08] 15) =
      some (7, { Frame.reset with seq := 0x5A, filhit := 0x1E, ts := 0x77, len := 0x63 },
        [0, 0, 0, 0, 0, 0, 0, 0, 0xEE]) := by decide

/-- Vector OD14. -/
theorem test_decrx :
    errAndFrame 0x00000015
        (withImage ([0x23, 0x01, 0x00, 0x00, 0x88, 0xF8, 0x00, 0x00, 0xEF, 0xCD, 0xAB, 0x89] ++
          [0x01, 0x02, 0x03, 0x04, 0x05, 0x06, 0x07, 0x08]) 20) =
      some (0, { id := 0x123, ide := 0, rtr := 0, brs := 0, fdf := 1, esi := 0, dlc := 8, seq := 0x5A, filhit := 0x1F,
                 ts := 0x89ABCDEF, len := 8 },
        [0x01, 0x02, 0x03, 0x04, 0x05, 0x06, 0x07, 0x08, 0xEE]) := by decide

/-- Vector OD16. -/
theorem test_decrx_objlen_range :
    ((run 0x00000015 (withImage [0x23] 77)).map fun t => (t.status, t.frame.id)) = some (0x108, 0) := by decide

/-- Vector OD20. -/
theorem test_dectef :
    errAndFrame 0x00000016 (withImage [0x8D, 0xC4, 0xB3, 0x02, 0xDF, 0x54, 0x00, 0x00, 0x00, 0x01, 0x00, 0x00] 12) =
      some (0, { id := 0x12345678, ide := 1, rtr := 0, brs := 1, fdf := 1, esi := 0, dlc := 0xF, seq := 0x2A,
                 filhit := 0x1E, ts := 0x100, len := 0x63 },
        [0, 0, 0, 0, 0, 0, 0, 0, 0xEE]) := by decide

/-- Vector OD19. -/
theorem test_dectef_size_mismatch :
    ((run 0x00000016 (withImage [0x8D] 11)).map fun t => (t.status, t.frame.id)) = some (0x107, 0) := by decide

/-! ### A block with another layout (00_scope.md R8; worked out by hand from 42_identifier.md R91 and R108) -/

/-- 0x12345678 has SID 0x48D and EID 0x05678: 0x48D << 21 | 0x05678. -/
theorem test_idenc_other_layout :
    errAndReg 0x00000A27 1 { withRegs 0 0x12345678 0 with layout := otherLayout } = some (0, 0x91A05678) := by decide

/-- Identifier 1 in bits 31:21, DLC 9 in bits 31:28, BRS in bit 25, the tag 0x55 in bits 6:0. -/
theorem test_enctef_other_layout :
    errAndImage 0x00000012 8
        { withFrame { Frame.reset with id := 1, brs := 1, dlc := 9, seq := 0x55 } [] 0 [] with layout := otherLayout } =
      some (0, 12, [0x00, 0x00, 0x20, 0x00, 0x55, 0x00, 0x00, 0x92]) := by decide

/-! ### The host port -/

/-- Vector HI4: an illegal word stands in CMD and STATUS reports it. -/
theorem test_illegal_word : run 0x00000009 State.reset = some { State.reset with cmd := 0x9, status := 0x101 } := by decide

/-- Vector HI7: the STATUS write clears ANYERR and keeps ERR. -/
theorem test_status_write :
    after (step { withPending [.write .w32 0x004 0xFFFFFFFF] with status := 0x101 }) =
      some { State.reset with status := 0x001 } := by decide

/-- Vector HI2. -/
theorem test_cfg_write : after (step (withPending [.write .w32 0x008 0xFFFFFFFF])) = some { State.reset with cfg := 1 } := by
  decide

/-- Vector HI11, and the word read back. -/
theorem test_obj_word :
    after (step (withPending [.write .w32 0x248 0xCAFEBABE])) =
        some { State.reset with obj := [(72, 0xBE), (73, 0xBA), (74, 0xFE), (75, 0xCA)] } ∧
      (after (step { withPending [.read .w32 0x248] with obj := [(72, 0xBE), (73, 0xBA), (74, 0xFE), (75, 0xCA)] })).map
        State.replies = some [0xCAFEBABE] := by decide

/-- Vector HI14: each of the accesses is refused. -/
theorem test_refused_accesses :
    ∀ a ∈ ([.write .w16 0x000 0, .read .w32 0x002, .read .w32 0x030, .read .w32 0x06C, .read .w32 0x140] ++
        [.read .w32 0x24C] : List HostAccess), after (step (withPending [a])) = none := by decide

/-- Vector HI15: reset after register writes. -/
theorem test_reset_input :
    after (step { withRegs 1 2 3 with cfg := 1, status := 0x101, objlen := 9, pending := [.reset] }) = some State.reset := by
  decide

/-! ### A state for the hypotheses of each statement -/

theorem witness_DecodeOfEncode : (Instr.extf 7 7 31 63).wf = true ∧ (Instr.insf 0 0 0 0).wf = true := by decide

theorem witness_EncodeOfDecode :
    decode 0x003FFFE1 = .ok (.extf 7 7 31 63) ∧ decode 0x000000F1 = .ok (.encrx 7) := by decide

theorem witness_DecodeFollowsOpcodeMap :
    ∃ row ∈ opcodeMap, (0x003FFFE1 : Word) &&& row.format.fixedMask = row.pattern := by decide

theorem witness_StepRunsDecodedCommand :
    (withPending [.write .w32 0x000 0x16]).pending = .write .w32 0x000 0x16 :: [] ∧ decode 0x16 = .ok .dectef := by decide

/-- The first clause at 0x09 and 0x1F, the second at NOP with bit 5 and at DECTEF with bit 31. -/
theorem witness_IllegalWordRaisesIllegalCmd :
    (withPending [.write .w32 0x000 0x1F]).pending = .write .w32 0x000 0x1F :: [] ∧
      (0x1F : Word).toNat % 32 ∈ [0x09, 0x1F] ∧ (0x09 : Word).toNat % 32 ∈ [0x09, 0x1F] ∧
      (∃ row ∈ opcodeMap, row.pattern.toNat = (0x20 : Word).toNat % 32 ∧ 0x20 &&& row.format.fixedMask ≠ row.pattern) ∧
      ∃ row ∈ opcodeMap,
        row.pattern.toNat = (0x80000016 : Word).toNat % 32 ∧ 0x80000016 &&& row.format.fixedMask ≠ row.pattern := by decide

theorem witness_IdleStepChangesNothing : State.reset.pending = [] := by decide

/-- A state for a read and one for a write; both sides of the equivalence occur: 0x248 is the last mapped offset and 0x24C
the first one after it. -/
theorem witness_UnadmittedAccessRefused :
    (withPending [.read .w32 0x24C]).pending = .read .w32 0x24C :: [] ∧
      (withPending [.write .w16 0x000 0]).pending = .write .w16 0x000 0 :: [] ∧
      mappedAt .w32 0x24C = .error .unmappedOffset ∧ mappedAt .w32 0x248 = .ok (.obj 18) ∧
      mappedAt .w16 0x000 = .error .accessWidth ∧ mappedAt .w32 0x002 = .error .misalignedOffset := by decide

theorem witness_HostReadChangesNothing :
    (withPending [.read .w32 0x248]).pending = .read .w32 (BitVec.ofNat 12 (Loc.obj 18).offset) :: [] := by decide

theorem witness_HostWriteStoresOnlyItsWord :
    (withPending [.write .w32 0x13C 5]).pending = .write .w32 (BitVec.ofNat 12 (Loc.data 15).offset) 5 :: [] ∧
      Loc.data 15 ≠ .cmd ∧ Loc.data 15 ≠ .status ∧ Loc.data 15 ≠ .cfg := by decide

theorem witness_StatusWriteClearsAnyErr :
    (withPending [.write .w32 0x004 0x100]).pending = .write .w32 0x004 0x100 :: [] := by decide

theorem witness_CfgWriteSetsSeqw :
    (withPending [.write .w32 0x008 1]).pending = .write .w32 0x008 1 :: [] ∧ (withPending [.write .w32 0x008 1]).Inv := by
  decide

theorem witness_ResetInputResetsBlock : (withPending [.reset]).pending = .reset :: [] := by decide

/-- Legal at width 0 and at the upper end of the word, illegal by width and by sum. -/
theorem witness_ExtfWritesField :
    (0 ≤ 32 ∧ 31 + 0 ≤ 32) ∧ (32 ≤ 32 ∧ 0 + 32 ≤ 32) ∧ 32 < 33 ∧ 32 < 28 + 5 := by decide

theorem witness_InsfReplacesField :
    ((withRegs 0 0xFF 0).gpr[(2 : Reg)].toNat < 2 ^ 8 ∧ 24 + 8 ≤ 32) ∧
      2 ^ 8 ≤ (withRegs 0 0x100 0).gpr[(2 : Reg)].toNat ∧ 32 < 33 ∧ 32 < 28 + 5 := by decide

theorem witness_Dlc2lenWritesLength :
    (withRegs 0 15 0).gpr[(2 : Reg)].toNat = 15 ∧ (withRegs 0 0 0).gpr[(2 : Reg)].toNat = 0 ∧
      15 < (withRegs 0 16 0).gpr[(2 : Reg)].toNat := by decide

theorem witness_Len2dlcWritesCode :
    (withRegs 0 64 0).gpr[(2 : Reg)].toNat = 64 ∧ (withRegs 0 0 0).gpr[(2 : Reg)].toNat = 0 ∧
      (withRegs 0 9 0).gpr[(2 : Reg)].toNat ∉ [0, 1, 2, 3, 4, 5, 6, 7, 8, 12, 16, 20, 24, 32, 48, 64] := by decide

theorem witness_Pls2lenWritesSize :
    (withRegs 0 7 0).gpr[(2 : Reg)].toNat = 7 ∧ (withRegs 0 0 0).gpr[(2 : Reg)].toNat = 0 ∧
      7 < (withRegs 0 8 0).gpr[(2 : Reg)].toNat := by decide

theorem witness_IdencWritesIdentifierWord :
    (withRegs 0 0x7FF 0).gpr[(2 : Reg)].toNat < 2 ^ 11 ∧ 2 ^ 11 ≤ (withRegs 0 0x800 0).gpr[(2 : Reg)].toNat ∧
      (withRegs 0 0x1FFFFFFF 0).gpr[(2 : Reg)].toNat < 2 ^ 29 ∧
      2 ^ 29 ≤ (withRegs 0 0x20000000 0).gpr[(2 : Reg)].toNat ∧ (withRegs 0 0 0).layout.NonOverlapping := by decide

/-- Legal frame registers at their upper ends: DLC 15, LEN 64, the last class; and LEN 0. -/
theorem witness_EnctxBuildsImage :
    encodeErrorCode .tx 7 (withFrame { Frame.reset with id := 0x1FFFFFFF, ide := 1, dlc := 15, seq := 0x7F, len := 64 }
        [] 0 []) = 0 ∧
      encodeErrorCode .tx 0 State.reset = 0 ∧ State.reset.layout.NonOverlapping ∧
      ({ State.reset with layout := otherLayout } : State).layout.NonOverlapping := by decide

theorem witness_EncrxBuildsImage :
    encodeErrorCode .rx 7 (withFrame { Frame.reset with id := 0x7FF, dlc := 15, filhit := 31, len := 64 } [] 0 []) = 0 ∧
      encodeErrorCode .rx 0 State.reset = 0 ∧ State.reset.layout.NonOverlapping := by decide

theorem witness_EnctefBuildsImage :
    encodeErrorCode .tef 0 (withFrame { Frame.reset with dlc := 15, seq := 0x7F, len := 0xFFFFFFFF } [] 0 []) = 0 ∧
      State.reset.layout.NonOverlapping := by decide

/-- OBJLEN exactly the header and the payload, and 76. -/
theorem witness_DectxReadsObject :
    decodeErrorCode .tx (withImage [0, 0, 0, 0, 8] 16) = 0 ∧ decodeErrorCode .tx (withImage [] 76) = 0 := by decide

theorem witness_DecrxReadsObject :
    decodeErrorCode .rx (withImage [0, 0, 0, 0, 15] 76) = 0 ∧ decodeErrorCode .rx (withImage [] 12) = 0 := by decide

theorem witness_DectefReadsObject :
    decodeErrorCode .tef (withImage [0, 0, 0, 0, 15] 12) = 0 ∧ decodeErrorCode .tef (withImage [] 76) = 0 := by decide

theorem witness_EncoderReportsFirstError :
    encodeErrorCode .tx 0 (withFrame { Frame.reset with id := 0x800, dlc := 9, len := 12 } [] 0 []) = 3 ∧
      encodeErrorCode .rx 0 (withFrame { Frame.reset with dlc := 9, len := 13 } [] 0 []) = 5 ∧
      encodeErrorCode .tx 0 (withFrame { Frame.reset with dlc := 9, len := 12 } [] 0 []) = 6 ∧
      encodeErrorCode .tef 0 (withFrame { Frame.reset with seq := 0x80 } [] 0 []) = 3 := by decide

theorem witness_DecoderReportsFirstError :
    decodeErrorCode .tx (withImage [] 77) = 8 ∧ decodeErrorCode .tef (withImage [] 11) = 7 ∧
      decodeErrorCode .rx (withImage [0, 0, 0, 0, 15] 75) = 7 := by decide

/-- A command that ends with an error. -/
theorem witness_ErrorIsNeverPartiallyApplied :
    (after (exec (.dlc2len 1 2) (withRegs 0 16 0))).map (fun t => errOf t.status) = some 3 := by decide

/-- ANYERR set, the next access a STATUS write without bit 8; and the last clause's write with it. -/
theorem witness_AnyErrIsSticky :
    (let s : State := { withPending [.write .w32 0x004 0xFF] with status := 0x101 };
      after (step s) = some { State.reset with status := 0x101 } ∧ anyErrOf s.status = true ∧
        s.pending.head? ≠ some .reset ∧ (0xFF : Word).getLsbD 8 = false) ∧
      (withPending [.write .w32 0x004 0x100]).pending = .write .w32 0x004 0x100 :: [] ∧
      (0x100 : Word).getLsbD 8 = true ∧ (after (exec .nop State.reset)).isSome = true := by decide

/-- The last clause: a state whose next access is a read. -/
theorem witness_AnyErrIsSticky_err :
    (after (step (withPending [.read .w32 0x004]))).isSome = true ∧
      (withPending [.read .w32 0x004]).pending.head? ≠ some .reset ∧
      ∀ v, (withPending [.read .w32 0x004]).pending.head? ≠ some (.write .w32 0x000 v) :=
  ⟨by decide, by decide, fun v => by simp [withPending]⟩

theorem witness_RegisterCommandFrame :
    Instr.insf 1 2 3 4 ∈ [.extf 1 2 3 4, .insf 1 2 3 4, .mskupd 1 2 3, .dlc2len 1 2, .len2dlc 1 2, .pls2len 1 2,
        .idenc 1 2 .standard, .iddec 1 2 .standard] ∧
      (after (exec (.insf 1 2 3 4) (withRegs 1 2 3))).isSome = true ∧ (after (exec .nop State.reset)).isSome = true := by
  decide

theorem witness_EncoderFrame :
    (after (exec (ObjKind.encoder .rx 0) (withFrame { Frame.reset with dlc := 8, len := 1 } [7] 20 [9]))).map
      (fun t => (t.obj.read 12, t.obj.read 20)) = some (7, 9) := by decide

theorem witness_DecoderFrame :
    (after (exec (ObjKind.decoder .tx) (withImage [1, 0, 0, 0, 8, 0, 0, 0, 5] 16))).map
      (fun t => (t.data.read 0, t.data.read 8, t.frame.ts)) = some (5, 0xEE, 0x77) := by decide

theorem witness_NoCommandWritesCmdOrCfg :
    (after (exec .dectx State.reset)).isSome = true ∧ ∀ (kind : Fin 3) (pls : Fin 8),
      Instr.dectx ≠ ObjKind.encoder (match kind with | 0 => .tx | 1 => .rx | 2 => .tef) pls := by decide

theorem witness_FieldRoundTrip :
    (1 ≤ 32 ∧ 31 + 1 ≤ 32) ∧ (1 : Word).toNat < 2 ^ 1 ∧ ((withRegs 0 1 0).reg 2).toNat < 2 ^ 1 := by decide

theorem witness_MaskedUpdateWritesDefault :
    (withRegs 0xFFFF0000 0x00005678 0x0000FFFF).reg 2 &&& ~~~ (withRegs 0xFFFF0000 0x00005678 0x0000FFFF).reg 3 = 0 := by
  decide

theorem witness_DlcBijection : dlcOf 64 = some 15 ∧ dlcOf 0 = some 0 ∧ ((withRegs 0 15 0).reg 2).toNat ≤ 15 := by decide

theorem witness_IdentifierRoundTrip :
    otherLayout.NonOverlapping ∧ (0x7FF : Word).toNat < 2 ^ 11 ∧ (0x1FFFFFFF : Word).toNat < 2 ^ 29 := by decide

/-- An encoded state, which is itself a state with the same OBJ, OBJLEN, CFG and layout. -/
theorem witness_ObjectRoundTrip :
    encodeErrorCode .tx 0 (withFrame { Frame.reset with dlc := 2, len := 1 } [7] 0 []) = 0 ∧
      (withFrame { Frame.reset with dlc := 2, len := 1 } [7] 0 []).layout.NonOverlapping ∧
      (after (exec (ObjKind.encoder .tx 0) (withFrame { Frame.reset with dlc := 2, len := 1 } [7] 0 []))).isSome = true := by
  decide

/-- Two different non-overlapping layouts and a legal frame. -/
theorem witness_ObjectRoundTripForEveryLayout :
    objLayout.NonOverlapping ∧ otherLayout.NonOverlapping ∧ objLayout ≠ otherLayout ∧
      encodeErrorCode .rx 0 (withFrame { Frame.reset with id := 0x7FF, dlc := 2, filhit := 31, len := 1 } [7] 0 []) = 0 := by
  decide

/-- The hypotheses of both clauses: a legal 23-bit sequence tag, and an image to decode. -/
theorem witness_SequenceWidthMixUp :
    (let s : State := { withFrame { Frame.reset with seq := 0x7FFFFF } [] 0 [] with cfg := 1 };
      s.cfg.toNat % 2 = 1 ∧ encodeErrorCode .tx 0 s = 0 ∧ s.layout.NonOverlapping ∧
        (after (exec (ObjKind.encoder .tx 0) s)).isSome = true) ∧
      (let s : State := { withImage [0, 0, 0, 0, 0, 0xFE, 0xFF, 0xFF] 12 with cfg := 1 };
        s.cfg.toNat % 2 = 1 ∧ decodeErrorCode .tef s = 0) := by decide

/-- A header with reserved bits only: word 0 bits 31:29, and word 1 bits 31:16 for TX and TEF with the 7-bit tag, bits 10:9
and 31:24 for RX. -/
def onlyReserved (kind : ObjKind) : Memory :=
  if kind = .rx then [(3, 0xE0), (5, 0x06), (7, 0xFF)] else [(3, 0xE0), (6, 0xFF), (7, 0xFF)]

/-- Each encoder completes after reset; for each decoder, an image that differs from the reset one in reserved bits only. -/
theorem witness_ReservedBitsZeroAndIgnored :
    ∀ kind ∈ [ObjKind.tx, .rx, .tef],
      encodeErrorCode kind 0 State.reset = 0 ∧ (after (exec (kind.encoder 0) State.reset)).isSome = true ∧
      (after (exec kind.decoder { State.reset with objlen := 12 })).map (fun t => errOf t.status) = some 0 ∧
      (onlyReserved kind).readWord 0 &&& headerMask0 objLayout = State.reset.obj.readWord 0 &&& headerMask0 objLayout ∧
      (onlyReserved kind).readWord 4 &&& headerMask1 objLayout kind 0 =
        State.reset.obj.readWord 4 &&& headerMask1 objLayout kind 0 := by
  decide

/-- Two buffers that agree below OBJLEN and differ at it. -/
theorem witness_DecoderReadsOnlyBelowObjlen :
    (∀ a, a < 16 → Memory.read [(0, 1), (16, 9)] a = (withImage [1] 16).obj.read a) ∧
      (after (exec (ObjKind.decoder .tx) (withImage [1] 16))).map (fun t => errOf t.status) = some 0 := by decide

/-- TX: F.TS and F.FILHIT differ, and DATA differs at F.LEN. -/
theorem witness_EncoderReadsOnlyCarriedFields :
    (∀ f ∈ [FrameReg.id, .ide, .rtr, .brs, .fdf, .esi, .dlc, .seq, .len],
        ({ Frame.reset with ts := 5, filhit := 99 } : Frame).get f = State.reset.frame.get f) ∧
      ObjKind.carries .tx .ts = false ∧ ObjKind.carries .tx .filhit = false ∧
      (after (exec (ObjKind.encoder .tx 0) State.reset)).isSome = true := by decide

theorem witness_NoCommandReadsStatus : (after (exec .nop { State.reset with status := 0x108 })).isSome = true := by decide

theorem witness_NoStepChangesLayout :
    (after (step { withPending [.reset] with layout := otherLayout })).map State.layout = some otherLayout := by decide

theorem witness_StepKeepsInvariant :
    State.Inv { withPending [.write .w32 0x000 0x20] with status := 0x108, cfg := 1, data := [(63, 1)], obj := [(75, 1)] } ∧
      (after (step { withPending [.write .w32 0x000 0x20] with
        status := 0x108, cfg := 1, data := [(63, 1)], obj := [(75, 1)] })).isSome = true := by decide

theorem witness_AdmittedHostNeverStopsBlock :
    ∀ a ∈ [HostAccess.write .w32 0x000 0x20, .read .w32 0x248, .reset], a.admitted = true := by decide

end Sys2Proof.Tests
end

section
/-! Proofs: no step changes the layout (00_scope.md R8). One lemma per layer of a step, from the command outward. -/

namespace Sys2Proof.Machine

/-- Every command keeps the layout, whether it ends with `done` or with `raise`. -/
theorem exec_layout {i : Instr} {s t : State} (h : exec i s = .next t) : t.layout = s.layout := by
  obtain ⟨u, hu, rfl⟩ | ⟨e, -, rfl⟩ := exec_next_iff.mp h
  · obtain ⟨-, -, -, hlay, -, -⟩ := effect_keeps hu
    rw [State.done_layout, hlay]
  · exact State.raise_layout s e

/-- A command word keeps the layout, be it a command or an illegal word. -/
theorem runCommand_layout {c : Word} {s t : State} (h : runCommand c s = .next t) : t.layout = s.layout := by
  unfold runCommand at h
  split at h
  · exact exec_layout h
  · cases h
    exact State.raise_layout ..

theorem hostWrite_layout {s t : State} {loc : Loc} {v : Word} (h : hostWrite s loc v = .next t) :
    t.layout = s.layout := by
  obtain ⟨-, -, hstore⟩ := s.writeLoc_port loc v
  unfold hostWrite at h
  split at h
  · next hcmd =>
    subst hcmd
    rw [runCommand_layout h, hstore]
  · cases h
    exact hstore

theorem access_layout {a : HostAccess} {s t : State} (h : access a s = .next t) : t.layout = s.layout := by
  cases a with
  | reset =>
    cases h
    exact State.resetBlock_layout s
  | read width offset =>
    simp only [access] at h
    split at h
    · cases h
      exact State.hostRead_layout ..
    · cases h
  | write width offset v =>
    simp only [access] at h
    split at h
    · exact hostWrite_layout h
    · cases h

/-- Settles O55: an idle step answers the same state, and no host access changes the layout. -/
theorem noStepChangesLayout : Obligations.NoStepChangesLayout := by
  intro s t h
  unfold step at h
  split at h
  · cases h
    rfl
  · next a rest _ => exact access_layout (s := { s with pending := rest }) h

end Sys2Proof.Machine
end

section
/-! Proofs: the header words of an object read back. What `encHeader` assembles under a non-overlapping layout gives
every field to the decoders again (42_identifier.md R95; 43_object_codec.md R108, R113 to R115). -/

namespace Sys2Proof.Machine

theorem extractField_zero_of_lt {v : Word} {n : Nat} (hn : n ≤ 32) (hv : v.toNat < 2 ^ n) : extractField v 0 n = v :=
  extractField_eq (by omega) hv fun i _ => by rw [Nat.zero_add]

/-- A standard identifier comes back from its identifier word. -/
theorem idDecode_standard {lay : ObjLayout} {id : Word} (hlay : lay.NonOverlapping) (h : id.toNat < 2 ^ 11) :
    idDecode lay (id <<< lay.sid) .standard = id := by
  rw [idDecode, slice_sid]
  exact extractField_of_bits (idFields_ok hlay).1 h fun _ _ => rfl

/-- An extended identifier comes back from its identifier word: each part from its own field. -/
theorem idDecode_extended {lay : ObjLayout} {id : Word} (hlay : lay.NonOverlapping) (h : id.toNat < 2 ^ 29) :
    idDecode lay ((slice id 28 18 <<< lay.sid) ||| (slice id 17 0 <<< lay.eid)) .extended = id := by
  obtain ⟨hsid, heid, hapart⟩ := idFields_ok hlay
  have hhi : (slice id 28 18).toNat < 2 ^ 11 := extractField_lt _ _ (by decide)
  have hlo : (slice id 17 0).toNat < 2 ^ 18 := extractField_lt _ _ (by decide)
  have hsidBack : extractField ((slice id 28 18 <<< lay.sid) ||| (slice id 17 0 <<< lay.eid)) lay.sid 11 =
      slice id 28 18 := by
    rw [BitVec.or_comm]
    exact extractField_or_shiftLeft hsid hhi fun i _ _ => getLsbD_shiftLeft_outside hlo (by omega)
  have heidBack : extractField ((slice id 28 18 <<< lay.sid) ||| (slice id 17 0 <<< lay.eid)) lay.eid 18 =
      slice id 17 0 :=
    extractField_or_shiftLeft heid hlo fun i _ _ => getLsbD_shiftLeft_outside hhi (by omega)
  rw [idDecode, slice_sid, slice_eid, hsidBack, heidBack]
  apply BitVec.eq_of_toNat_eq
  rw [idParts_toNat hhi hlo, slice_sid_toNat h, slice_eid_toNat]
  omega

/-- Whatever `idEncode` accepts, `idDecode` gives back (42_identifier.md R95). -/
theorem idDecode_of_idEncode {lay : ObjLayout} {id w : Word} {x : IdKind} (hlay : lay.NonOverlapping)
    (h : idEncode lay id x = .ok w) : idDecode lay w x = id := by
  cases x with
  | standard =>
    have hid : id.toNat < 2 ^ 11 := by
      simp only [idEncode, bind_eq_ok, require_eq_ok] at h
      obtain ⟨_, hle, -⟩ := h
      omega
    rw [idEncode_standard hid] at h
    cases h
    exact idDecode_standard hlay hid
  | extended =>
    have hid : id.toNat < 2 ^ 29 := by
      simp only [idEncode, bind_eq_ok, require_eq_ok] at h
      obtain ⟨_, hle, -⟩ := h
      omega
    rw [idEncode_extended hid] at h
    cases h
    exact idDecode_extended hlay hid

/-- The header words `w0` and `w1` hold every register of `f` that the header of an object kind carries. -/
structure HeaderHolds (lay : ObjLayout) (kind : ObjKind) (cfg : Word) (f : Frame) (w0 w1 : Word) : Prop where
  id : idDecode lay w0 (idKindOf f.ide) = f.id
  dlc : extractField w1 lay.dlc 4 = f.dlc
  ide : extractField w1 lay.ide 1 = f.ide
  rtr : extractField w1 lay.rtr 1 = f.rtr
  brs : extractField w1 lay.brs 1 = f.brs
  fdf : extractField w1 lay.fdf 1 = f.fdf
  esi : extractField w1 lay.esi 1 = f.esi
  seq : kind ≠ .rx → extractField w1 lay.seq (seqBits cfg) = f.seq
  filhit : kind = .rx → extractField w1 lay.filhit 5 = f.filhit

/-- A frame that the encoder takes: its header is assembled and holds it. -/
theorem encHeader_holds {kind : ObjKind} {pls : Fin 8} {s : State} (hlay : s.layout.NonOverlapping)
    (hcode : encodeErrorCode kind pls s = 0) :
    ∃ w0 w1, encHeader s.layout kind s.cfg s.frame = .ok (w0, w1) ∧ HeaderHolds s.layout kind s.cfg s.frame w0 w1 := by
  obtain ⟨w0, hid, henc, hfit⟩ := encHeader_of_code_zero hcode
  have hw0 := idDecode_of_idEncode hlay hid
  by_cases hk : kind = .rx
  · simp only [tagOf, if_pos hk] at henc hfit
    obtain ⟨hdlc, hide, hrtr, hbrs, hfdf, hesi, htag⟩ := flagsWord_fields hlay.2.2 le_rfl hfit
    have hfilhit := (htag 5 le_rfl).trans (extractField_zero_of_lt (by decide) hfit.tag)
    exact ⟨w0, _, henc, hw0, hdlc, hide, hrtr, hbrs, hfdf, hesi, fun h => absurd hk h, fun _ => hfilhit⟩
  · simp only [tagOf, if_neg hk] at henc hfit
    have hwidth := seqBits_le s.cfg
    obtain ⟨hdlc, hide, hrtr, hbrs, hfdf, hesi, htag⟩ := flagsWord_fields hlay.2.1 hwidth hfit
    have hseq := (htag _ hwidth).trans (extractField_zero_of_lt (by omega) hfit.tag)
    exact ⟨w0, _, henc, hw0, hdlc, hide, hrtr, hbrs, hfdf, hesi, fun _ => hseq, fun h => absurd h hk⟩

end Sys2Proof.Machine
end

section
/-! Proofs: the image an encoder leaves. `HoldsImage` says all a decoder of the same kind reads of it, and no more, so
any state with the same OBJ bytes, OBJLEN, CFG and layout has it too (43_object_codec.md R106 to R111). -/

namespace Sys2Proof.Machine

/-- Byte `a` of the payload of an object with `n` actual data bytes (43_object_codec.md R107). -/
def paddedByte (data : Memory) (n a : Nat) : Byte := if a < n then data.read a else padByte data n

/-- What the image of an object holds after its first two header words (43_object_codec.md R100, R106). -/
def imageTail (kind : ObjKind) (pls : Fin 8) (s : State) : List Byte :=
  match kind with
  | .tx => payloadBytes s.data s.frame.len.toNat (plsLen pls)
  | .rx => wordBytes s.frame.ts ++ payloadBytes s.data s.frame.len.toNat (plsLen pls)
  | .tef => wordBytes s.frame.ts

/-- OBJ and OBJLEN of `t` hold an object of this kind with the frame and the payload of `s`, under the layout and the
sequence width of `s`, which `t` has too. -/
structure HoldsImage (kind : ObjKind) (s t : State) : Prop where
  layout : t.layout = s.layout
  cfg : t.cfg = s.cfg
  header : HeaderHolds s.layout kind s.cfg s.frame (t.obj.readWord 0) (t.obj.readWord 4)
  timestamp : kind ≠ .tx → t.obj.readWord 8 = s.frame.ts
  payload : kind ≠ .tef → ∀ a, a < dlcLen s.frame.dlc.toNat →
    t.obj.read (headerSize kind + a) = paddedByte s.data s.frame.len.toNat a
  objlen_le : t.objlen.toNat ≤ 76
  le_objlen : headerSize kind ≤ t.objlen.toNat
  payload_fits : kind = .tef ∨ headerSize kind + dlcLen s.frame.dlc.toNat ≤ t.objlen.toNat

/-- An encoder that finds no error stores the two header words and the tail. -/
theorem effect_encoder {kind : ObjKind} {pls : Fin 8} {s : State} {w0 w1 : Word}
    (hcode : encodeErrorCode kind pls s = 0) (henc : encHeader s.layout kind s.cfg s.frame = .ok (w0, w1)) :
    effect (kind.encoder pls) s =
      .ok (s.storeImage (wordBytes w0 ++ wordBytes w1 ++ imageTail kind pls s) (kind.imageSize pls)) := by
  obtain ⟨-, -, -, -, -, hpay⟩ := encodeErrorCode_eq_zero_iff.mp hcode
  cases kind with
  | tx =>
    obtain ⟨hlen, hfit⟩ := hpay (by decide)
    exact encTx_ok_iff.mpr ⟨w0, w1, henc, hlen, hfit, rfl⟩
  | rx =>
    obtain ⟨hlen, hfit⟩ := hpay (by decide)
    refine encRx_ok_iff.mpr ⟨w0, w1, henc, hlen, hfit, ?_⟩
    rw [imageTail, List.append_assoc _ (wordBytes s.frame.ts)]
    rfl
  | tef => exact encTef_ok_iff.mpr ⟨w0, w1, henc, rfl⟩

theorem imageSize_le (kind : ObjKind) (pls : Fin 8) : kind.imageSize pls ≤ 76 := by
  have := plsLen_le pls
  cases kind <;> simp only [ObjKind.imageSize] <;> omega

theorem imageSize_toNat (kind : ObjKind) (pls : Fin 8) :
    (BitVec.ofNat 32 (kind.imageSize pls)).toNat = kind.imageSize pls := by
  have := imageSize_le kind pls
  rw [BitVec.toNat_ofNat, Nat.mod_eq_of_lt (by omega)]

theorem headerSize_le_imageSize (kind : ObjKind) (pls : Fin 8) : headerSize kind ≤ kind.imageSize pls := by
  cases kind with
  | tx | rx => exact Nat.le_add_right _ _
  | tef => exact le_rfl

theorem imageSize_of_payload {kind : ObjKind} (hk : kind ≠ .tef) (pls : Fin 8) :
    kind.imageSize pls = headerSize kind + plsLen pls := by
  cases kind with
  | tx | rx => rfl
  | tef => exact absurd rfl hk

/-- The timestamp is the third word of an image that has one. -/
theorem readWord_timestamp {kind : ObjKind} (hk : kind ≠ .tx) (m : Memory) (pls : Fin 8) (s : State) (w0 w1 : Word) :
    (m.writeBytes 0 (wordBytes w0 ++ wordBytes w1 ++ imageTail kind pls s)).readWord 8 = s.frame.ts := by
  cases kind with
  | tx => exact absurd rfl hk
  | rx =>
    rw [imageTail, ← List.append_assoc]
    exact m.readWord_writeBytes (pre := wordBytes w0 ++ wordBytes w1) s.frame.ts rfl
  | tef =>
    have := m.readWord_writeBytes (a := 8) (pre := wordBytes w0 ++ wordBytes w1) (post := []) s.frame.ts rfl
    rwa [List.append_nil] at this

/-- The payload stands behind the header of an image that has one. -/
theorem read_payload {kind : ObjKind} (hk : kind ≠ .tef) (m : Memory) {pls : Fin 8} {s : State} (w0 w1 : Word) {a : Nat}
    (hlen : s.frame.len.toNat ≤ plsLen pls) (ha : a < plsLen pls) :
    (m.writeBytes 0 (wordBytes w0 ++ wordBytes w1 ++ imageTail kind pls s)).read (headerSize kind + a) =
      paddedByte s.data s.frame.len.toNat a := by
  have hin : a < (payloadBytes s.data s.frame.len.toNat (plsLen pls)).length := by rwa [payloadBytes_length hlen]
  rw [paddedByte, ← payloadBytes_getElem hin]
  cases kind with
  | tx => exact m.read_image (wordBytes w0 ++ wordBytes w1) _ a hin
  | rx =>
    rw [imageTail, ← List.append_assoc]
    exact m.read_image (wordBytes w0 ++ wordBytes w1 ++ wordBytes s.frame.ts) _ a hin
  | tef => exact absurd rfl hk

/-- A frame that the encoder takes: the encoder completes, keeps the frame and DATA, and leaves an image that holds
them. -/
theorem exec_encoder_holdsImage {kind : ObjKind} {pls : Fin 8} {s : State} (hlay : s.layout.NonOverlapping)
    (hcode : encodeErrorCode kind pls s = 0) :
    ∃ t, exec (kind.encoder pls) s = .next t ∧ HoldsImage kind s t ∧ t.frame = s.frame ∧ t.data = s.data ∧
      t.status = statusDone s.status := by
  obtain ⟨w0, w1, henc, hheader⟩ := encHeader_holds hlay hcode
  obtain ⟨-, -, -, -, -, hpay⟩ := encodeErrorCode_eq_zero_iff.mp hcode
  refine ⟨_, exec_next_iff.mpr (Or.inl ⟨_, effect_encoder hcode henc, rfl⟩), ?_, rfl, rfl, rfl⟩
  have hw0 : (s.obj.writeBytes 0 (wordBytes w0 ++ wordBytes w1 ++ imageTail kind pls s)).readWord 0 = w0 := by
    rw [List.append_assoc]
    exact s.obj.readWord_image w0 _
  have hw1 : (s.obj.writeBytes 0 (wordBytes w0 ++ wordBytes w1 ++ imageTail kind pls s)).readWord 4 = w1 :=
    s.obj.readWord_writeBytes (pre := wordBytes w0) w1 rfl
  have hsize := imageSize_toNat kind pls
  refine
    { layout := rfl
      cfg := rfl
      header := by simpa only [State.done_obj, State.storeImage_obj, hw0, hw1] using hheader
      timestamp := fun hk => readWord_timestamp hk s.obj pls s w0 w1
      payload := fun hk a ha => ?_
      objlen_le := hsize.trans_le (imageSize_le kind pls)
      le_objlen := (headerSize_le_imageSize kind pls).trans_eq hsize.symm
      payload_fits := ?_ }
  · obtain ⟨hlen, hfit⟩ := hpay hk
    exact read_payload hk s.obj w0 w1 (hlen.trans hfit) (ha.trans_le hfit)
  · by_cases hk : kind = .tef
    · exact Or.inl hk
    · obtain ⟨-, hfit⟩ := hpay hk
      refine Or.inr (le_of_le_of_eq ?_ hsize.symm)
      rw [imageSize_of_payload hk]
      exact Nat.add_le_add_left hfit _

end Sys2Proof.Machine
end

section
/-! Proofs: decoding such an image, and the round trip under any two layouts (43_object_codec.md R116; 92_eei_decisions.md
D9). What the round trip leaves is written down without the layout, which is why two layouts end alike. -/

namespace Sys2Proof.Machine

/-- The frame registers `g` after a decode of an object with the registers `f`: the ones the kind carries are those of
`f`, F.LEN is the length of the code, and the others stay (10_state.md R32; 43_object_codec.md R113 to R115). -/
def decodedFrame (kind : ObjKind) (g f : Frame) : Frame :=
  { f with
    seq := if kind = .rx then g.seq else f.seq
    filhit := if kind = .rx then f.filhit else g.filhit
    ts := if kind = .tx then g.ts else f.ts
    len := if kind = .tef then g.len else BitVec.ofNat 32 (dlcLen f.dlc.toNat) }

/-- Byte `a` of DATA after that decode: the padded payload below the length of the code, if the kind has a payload. -/
def decodedByte (kind : ObjKind) (data : Memory) (s : State) (a : Nat) : Byte :=
  if kind ≠ .tef ∧ a < dlcLen s.frame.dlc.toNat then paddedByte s.data s.frame.len.toNat a else data.read a

theorem decodedFrame_get {kind : ObjKind} {r : FrameReg} (g f : Frame) (hr : kind.carries r = true) (hlen : r ≠ .len) :
    (decodedFrame kind g f).get r = f.get r := by
  cases r with
  | len => exact absurd rfl hlen
  | seq =>
    have hk : kind ≠ .rx := by simpa [ObjKind.carries] using hr
    exact if_neg hk
  | filhit =>
    have hk : kind = .rx := by simpa [ObjKind.carries] using hr
    exact if_pos hk
  | ts =>
    have hk : kind ≠ .tx := by simpa [ObjKind.carries] using hr
    exact if_neg hk
  | id | ide | rtr | brs | fdf | esi | dlc => rfl

theorem decodedFrame_len {kind : ObjKind} (g f : Frame) (hk : kind ≠ .tef) :
    (decodedFrame kind g f).len.toNat = dlcLen f.dlc.toNat := by
  have := dlcLen_le f.dlc.toNat
  simp only [decodedFrame, if_neg hk, BitVec.toNat_ofNat]
  omega

/-- The header parse of an image that holds the frame of `s`. -/
theorem HoldsImage.decHeader {kind : ObjKind} {s t : State} (h : HoldsImage kind s t) :
    decHeader t.layout kind t.objlen t.obj =
      .ok ⟨t.obj.readWord 0, t.obj.readWord 4, s.frame.dlc, dlcLen s.frame.dlc.toNat, s.frame.ide⟩ :=
  decHeader_ok_iff.mpr ⟨h.objlen_le, h.le_objlen, h.payload_fits, rfl, rfl, by rw [h.layout, h.header.dlc], rfl,
    by rw [h.layout, h.header.ide]⟩

/-- DATA after the payload of such an image was loaded. -/
theorem HoldsImage.read_loadPayload {kind : ObjKind} {s t : State} (h : HoldsImage kind s t) (hk : kind ≠ .tef)
    (a : Nat) :
    (t.loadPayload kind (dlcLen s.frame.dlc.toNat)).data.read a = decodedByte kind t.data s a := by
  rw [State.read_loadPayload, decodedByte]
  by_cases ha : a < dlcLen s.frame.dlc.toNat
  · rw [if_pos ha, if_pos ⟨hk, ha⟩, h.payload hk a ha]
  · rw [if_neg ha, if_neg fun hc => ha hc.2]

/-- The decoder of the kind gives back what the image holds, from any state that has the image. -/
theorem HoldsImage.exec_decoder {kind : ObjKind} {s t : State} (h : HoldsImage kind s t) :
    ∃ u, exec kind.decoder t = .next u ∧ u.frame = decodedFrame kind t.frame s.frame ∧
      (∀ a, u.data.read a = decodedByte kind t.data s a) ∧ u.status = statusDone t.status := by
  have hdec := h.decHeader
  have hdata := h.read_loadPayload
  obtain ⟨hlay, hcfg, ⟨hid, -, -, hrtr, hbrs, hfdf, hesi, hseq, hfilhit⟩, hts, -, -, -, -⟩ := h
  have hend {v : State} (hv : effect kind.decoder t = .ok v) : exec kind.decoder t = .next v.done :=
    exec_next_iff.mpr (Or.inl ⟨v, hv, rfl⟩)
  cases kind with
  | tx =>
    refine ⟨_, hend (decTx_ok_iff.mpr ⟨_, hdec, rfl⟩), ?_, hdata (by decide), rfl⟩
    simp [decodedFrame, Frame.withHeader, hlay, hcfg, hid, hrtr, hbrs, hfdf, hesi, hseq]
  | rx =>
    refine ⟨_, hend (decRx_ok_iff.mpr ⟨_, hdec, rfl⟩), ?_, hdata (by decide), rfl⟩
    simp [decodedFrame, Frame.withHeader, hlay, hid, hrtr, hbrs, hfdf, hesi, hfilhit, hts]
  | tef =>
    refine ⟨_, hend (decTef_ok_iff.mpr ⟨_, hdec, rfl⟩), ?_, fun a => ?_, rfl⟩
    · simp [decodedFrame, Frame.withHeader, hlay, hcfg, hid, hrtr, hbrs, hfdf, hesi, hseq, hts]
    · simp [decodedByte]

/-- Encode and decode as the same kind: the frame registers, DATA and STATUS at the end, none of which speaks of the
layout. -/
theorem exec_encoder_decoder {kind : ObjKind} {pls : Fin 8} {s : State} (hlay : s.layout.NonOverlapping)
    (hcode : encodeErrorCode kind pls s = 0) :
    ∃ t u, exec (kind.encoder pls) s = .next t ∧ exec kind.decoder t = .next u ∧
      u.frame = decodedFrame kind s.frame s.frame ∧ (∀ a, u.data.read a = decodedByte kind s.data s a) ∧
      u.status = statusDone (statusDone s.status) := by
  obtain ⟨t, ht, himage, hframe, hdata, hstatus⟩ := exec_encoder_holdsImage hlay hcode
  obtain ⟨u, hu, huframe, hudata, hustatus⟩ := himage.exec_decoder
  rw [hframe] at huframe
  rw [hdata] at hudata
  rw [hstatus] at hustatus
  exact ⟨t, u, ht, hu, huframe, hudata, hustatus⟩

/-- A byte of the padded payload in terms of F.LEN; the pad of an empty payload is 0x00 (log entry 11). -/
theorem paddedByte_len (data : Memory) (len : Word) (a : Nat) :
    paddedByte data len.toNat a =
      if a < len.toNat then data.read a else if len = 0 then 0 else data.read (len.toNat - 1) := by
  have hzero : len.toNat = 0 ↔ len = 0 := by simp [← BitVec.toNat_inj]
  simp only [paddedByte, padByte, padEmpty, hzero]

/-- Settles O46: under either layout the round trip ends with the same frame, DATA bytes and STATUS, those of
`exec_encoder_decoder`. -/
theorem objectRoundTripForEveryLayout : Obligations.ObjectRoundTripForEveryLayout := by
  intro lay lay' kind pls s hlay hlay' hcode
  obtain ⟨t, u, ht, hu, hframe, hdata, hstatus⟩ :=
    exec_encoder_decoder (kind := kind) (pls := pls) (s := { s with layout := lay }) hlay hcode
  obtain ⟨t', u', ht', hu', hframe', hdata', hstatus'⟩ :=
    exec_encoder_decoder (kind := kind) (pls := pls) (s := { s with layout := lay' }) hlay' hcode
  refine ⟨t, u, t', u', ht, hu, ht', hu', hframe.trans hframe'.symm, fun a => (hdata a).trans (hdata' a).symm,
    hstatus.trans hstatus'.symm, fun r hr hlen => ?_, fun hk => ⟨?_, fun a ha => ?_⟩⟩
  · rw [hframe]
    exact decodedFrame_get _ _ hr hlen
  · rw [hframe]
    exact decodedFrame_len _ _ hk
  · rw [hdata, decodedByte, if_pos ⟨hk, ha⟩]
    exact paddedByte_len ..

end Sys2Proof.Machine
end

section
/-! Proofs: what a successful command leaves, said once for all fifteen. `EffectOf` has one case per sort of command:
nothing, a register, an image in OBJ with its size in OBJLEN, or the frame registers and the payload in DATA. -/

namespace Sys2Proof.Machine

/-- The register a command writes (30_encoding.md R58); none for NOP and the object commands. -/
def destination : Instr → Option Reg
  | .extf rd _ _ _ | .insf rd _ _ _ | .mskupd rd _ _ | .dlc2len rd _ | .len2dlc rd _ | .pls2len rd _ | .idenc rd _ _
  | .iddec rd _ _ => some rd
  | .nop | .enctx _ | .encrx _ | .enctef | .dectx | .decrx | .dectef => none

@[simp] theorem destination_encoder (kind : ObjKind) (pls : Fin 8) : destination (kind.encoder pls) = none := by
  cases kind <;> rfl

@[simp] theorem destination_decoder (kind : ObjKind) : destination kind.decoder = none := by
  cases kind <;> rfl

/-- `EffectOf s i t`: `t` is `s` with writes that the command `i` may make before its end. -/
inductive EffectOf (s : State) : Instr → State → Prop
  | nop : EffectOf s .nop s
  | register {i : Instr} {rd : Reg} (hi : destination i = some rd) (v : Word) : EffectOf s i (s.setReg rd v)
  | encoder (kind : ObjKind) (pls : Fin 8) {image : List Byte} (hsize : image.length = kind.imageSize pls) :
      EffectOf s (kind.encoder pls) (s.storeImage image (kind.imageSize pls))
  | decoder (kind : ObjKind) (frame : Frame) {len : Nat} (hlen : len ≤ Config.dataBytes) :
      EffectOf s kind.decoder { s.loadPayload kind len with frame := frame }

/-- The length in a parsed header is one of the table DLC_LEN, so it fits DATA. -/
theorem decHeader_len_le {lay : ObjLayout} {kind : ObjKind} {objlen : Word} {obj : Memory} {h : Header}
    (hh : decHeader lay kind objlen obj = .ok h) : h.len ≤ Config.dataBytes := by
  obtain ⟨-, -, -, -, -, -, hlen, -⟩ := decHeader_ok_iff.mp hh
  rw [hlen]
  exact dlcLen_le _

/-- Everything a successful command can have done. -/
theorem effectOf_of_ok {i : Instr} {s t : State} (h : effect i s = .ok t) : EffectOf s i t := by
  cases i with
  | nop => cases h; exact .nop
  | extf => obtain ⟨-, rfl⟩ := extf_ok_iff.mp h; exact .register rfl _
  | insf => obtain ⟨-, -, rfl⟩ := insf_ok_iff.mp h; exact .register rfl _
  | mskupd => cases h; exact .register rfl _
  | dlc2len => obtain ⟨-, rfl⟩ := dlc2len_ok_iff.mp h; exact .register rfl _
  | len2dlc => obtain ⟨_, -, rfl⟩ := len2dlc_ok_iff.mp h; exact .register rfl _
  | pls2len => obtain ⟨-, rfl⟩ := pls2len_ok_iff.mp h; exact .register rfl _
  | idenc => obtain ⟨_, -, rfl⟩ := idenc_ok_iff.mp h; exact .register rfl _
  | iddec => cases h; exact .register rfl _
  | enctx pls =>
    obtain ⟨_, _, -, hlen, hfit, rfl⟩ := encTx_ok_iff.mp h
    exact .encoder .tx pls (by simp [payloadBytes_length (hlen.trans hfit), ObjKind.imageSize]; omega)
  | encrx pls =>
    obtain ⟨_, _, -, hlen, hfit, rfl⟩ := encRx_ok_iff.mp h
    exact .encoder .rx pls (by simp [payloadBytes_length (hlen.trans hfit), ObjKind.imageSize]; omega)
  | enctef =>
    obtain ⟨_, _, -, rfl⟩ := encTef_ok_iff.mp h
    exact .encoder .tef 0 rfl
  | dectx =>
    obtain ⟨_, hh, rfl⟩ := decTx_ok_iff.mp h
    exact .decoder .tx _ (decHeader_len_le hh)
  | decrx =>
    obtain ⟨_, hh, rfl⟩ := decRx_ok_iff.mp h
    exact .decoder .rx _ (decHeader_len_le hh)
  | dectef =>
    obtain ⟨_, -, rfl⟩ := decTef_ok_iff.mp h
    exact .decoder .tef _ (len := 0) (Nat.zero_le _)

end Sys2Proof.Machine
end

section
/-! Proofs: the invariant at reset and over a step (10_state.md R23, R24, R27, R28, R33; 92_eei_decisions.md D9). One
lemma per operation on the state, then one per layer of a step. -/

namespace Sys2Proof.Machine

/-- Settles O53: empty buffers, zero registers and the default layout. -/
theorem resetMeetsInvariant : Obligations.ResetMeetsInvariant :=
  ⟨Memory.wf_nil _, Memory.wf_nil _, by decide, by decide, by decide⟩

/-! ### The operations on the state -/

theorem State.done_inv {s : State} (h : s.Inv) : s.done.Inv := by
  obtain ⟨hdata, hobj, hstatus, hcfg, hlay⟩ := h
  exact ⟨hdata, hobj, statusLegal_done hstatus, hcfg, hlay⟩

theorem State.raise_inv {s : State} (h : s.Inv) (e : Err) : (s.raise e).Inv := by
  obtain ⟨hdata, hobj, hstatus, hcfg, hlay⟩ := h
  exact ⟨hdata, hobj, statusLegal_raise hstatus e, hcfg, hlay⟩

/-- An image of at most 76 bytes stays inside OBJ. -/
theorem State.storeImage_inv {s : State} (h : s.Inv) {image : List Byte} (hsize : image.length ≤ Config.objBytes)
    (size : Nat) : (s.storeImage image size).Inv := by
  obtain ⟨hdata, hobj, hrest⟩ := h
  exact ⟨hdata, Memory.wf_writeBytes hobj (by omega), hrest⟩

/-- A payload of at most 64 bytes stays inside DATA. -/
theorem State.loadPayload_inv {s : State} (h : s.Inv) (kind : ObjKind) {len : Nat} (hlen : len ≤ Config.dataBytes) :
    (s.loadPayload kind len).Inv := by
  obtain ⟨hdata, hrest⟩ := h
  exact ⟨Memory.wf_writeBytes hdata (by simpa using hlen), hrest⟩

theorem State.resetBlock_inv {s : State} (h : s.Inv) : s.resetBlock.Inv := by
  obtain ⟨-, -, -, -, hlay⟩ := h
  obtain ⟨hdata, hobj, hstatus, hcfg, -⟩ := resetMeetsInvariant
  exact ⟨hdata, hobj, hstatus, hcfg, hlay⟩

/-- A host store: STATUS and CFG keep their reserved bits, and the last word of a buffer ends at its size. -/
theorem State.writeLoc_inv {s : State} (h : s.Inv) (loc : Loc) (v : Word) : (s.writeLoc loc v).Inv := by
  have hinv := h
  obtain ⟨hdata, hobj, hstatus, hcfg, hlay⟩ := h
  cases loc with
  | status => exact ⟨hdata, hobj, statusLegal_hostWrite hstatus v, hcfg, hlay⟩
  | cfg => exact ⟨hdata, hobj, hstatus, cfgLegal_hostWrite hcfg v, hlay⟩
  | data k => exact ⟨Memory.wf_writeWord hdata (show 4 * k.val + 4 ≤ 64 by omega) v, hobj, hstatus, hcfg, hlay⟩
  | obj k => exact ⟨hdata, Memory.wf_writeWord hobj (show 4 * k.val + 4 ≤ 76 by omega) v, hstatus, hcfg, hlay⟩
  | cmd | objlen | gpr _ | frame _ => exact hinv

/-! ### The layers of a step -/

theorem EffectOf.inv {i : Instr} {s t : State} (h : EffectOf s i t) (hs : s.Inv) : t.Inv := by
  cases h with
  | nop => exact hs
  | register _ v => exact hs
  | encoder kind pls hsize => exact State.storeImage_inv hs (hsize.trans_le (imageSize_le kind pls)) _
  | decoder kind frame hlen => exact State.loadPayload_inv hs kind hlen

/-- Every command keeps the invariant, whether it ends with `done` or with `raise`. -/
theorem exec_inv {i : Instr} {s t : State} (hs : s.Inv) (h : exec i s = .next t) : t.Inv := by
  obtain ⟨u, hu, rfl⟩ | ⟨e, -, rfl⟩ := exec_next_iff.mp h
  · exact State.done_inv ((effectOf_of_ok hu).inv hs)
  · exact State.raise_inv hs e

/-- A command word keeps the invariant, be it a command or an illegal word. -/
theorem runCommand_inv {c : Word} {s t : State} (hs : s.Inv) (h : runCommand c s = .next t) : t.Inv := by
  unfold runCommand at h
  split at h
  · exact exec_inv hs h
  · cases h
    exact State.raise_inv hs _

theorem hostWrite_inv {s t : State} {loc : Loc} {v : Word} (hs : s.Inv) (h : hostWrite s loc v = .next t) :
    t.Inv := by
  unfold hostWrite at h
  split at h
  · exact runCommand_inv (State.writeLoc_inv hs .cmd v) h
  · cases h
    exact State.writeLoc_inv hs loc v

theorem access_inv {a : HostAccess} {s t : State} (hs : s.Inv) (h : access a s = .next t) : t.Inv := by
  cases a with
  | reset =>
    cases h
    exact State.resetBlock_inv hs
  | read width offset =>
    simp only [access] at h
    split at h
    · cases h
      exact hs
    · cases h
  | write width offset v =>
    simp only [access] at h
    split at h
    · exact hostWrite_inv hs h
    · cases h

/-- Settles O52: an idle step answers the same state, and every host access keeps the invariant. -/
theorem stepKeepsInvariant : Obligations.StepKeepsInvariant := by
  intro s t hs h
  unfold step at h
  split at h
  · cases h
    exact hs
  · next a rest _ => exact access_inv (s := { s with pending := rest }) hs h

end Sys2Proof.Machine
end

section
/-! Proofs: what commands leave unchanged (10_state.md R21, R22, R24, R25, R28). -/

namespace Sys2Proof.Machine

/-- A command that is no encoder leaves OBJ and OBJLEN. -/
theorem EffectOf.obj_objlen {i : Instr} {s t : State} (h : EffectOf s i t)
    (hi : ∀ kind pls, i ≠ ObjKind.encoder kind pls) : t.obj = s.obj ∧ t.objlen = s.objlen := by
  cases h with
  | encoder kind pls _ => exact absurd rfl (hi kind pls)
  | nop | register _ _ | decoder _ _ _ => exact ⟨rfl, rfl⟩

/-- Settles O39: an effect keeps these registers, `done` and `raise` write STATUS alone. -/
theorem noCommandWritesCmdOrCfg : Obligations.NoCommandWritesCmdOrCfg := by
  intro i s t h
  obtain ⟨u, hu, rfl⟩ | ⟨e, -, rfl⟩ := exec_next_iff.mp h
  · obtain ⟨hcmd, -, hcfg, hlay, hpending, hreplies⟩ := effect_keeps hu
    exact ⟨hcmd, hcfg, hlay, hpending, hreplies, (effectOf_of_ok hu).obj_objlen⟩
  · exact ⟨rfl, rfl, rfl, rfl, rfl, fun _ => ⟨rfl, rfl⟩⟩

/-- Of STATUS a command writes the bits of ERR and ANYERR at most (60_exceptions.md R130). -/
theorem exec_status_frame {i : Instr} {s t : State} (h : exec i s = .next t) :
    t.status &&& 0xFFFFFEF0 = s.status &&& 0xFFFFFEF0 := by
  obtain ⟨u, hu, rfl⟩ | ⟨e, -, rfl⟩ := exec_next_iff.mp h
  · obtain ⟨-, hstatus, -⟩ := effect_keeps hu
    rw [State.done_status, statusDone_frame, hstatus]
  · exact statusRaise_frame s.status e

@[simp] theorem State.setReg_reg_self (s : State) (r : Reg) : s.setReg r (s.reg r) = s := by
  simp [State.setReg, State.reg]

theorem EffectOf.setReg {i : Instr} {s t : State} {rd : Reg} (h : EffectOf s i t) (hi : destination i = some rd) :
    ∃ v, t = s.setReg rd v := by
  cases h with
  | nop => cases hi
  | register hrd v =>
    obtain rfl := Option.some.inj (hrd.symm.trans hi)
    exact ⟨v, rfl⟩
  | encoder kind pls _ => rw [destination_encoder] at hi; cases hi
  | decoder kind _ _ => rw [destination_decoder] at hi; cases hi

/-- A command with destination `rd` writes `rd` and STATUS; one that fails leaves `rd` as it is. -/
theorem exec_setReg {i : Instr} {s t : State} {rd : Reg} (hi : destination i = some rd) (h : exec i s = .next t) :
    ∃ v st, t = { s.setReg rd v with status := st } := by
  obtain ⟨u, hu, rfl⟩ | ⟨e, -, rfl⟩ := exec_next_iff.mp h
  · obtain ⟨v, rfl⟩ := (effectOf_of_ok hu).setReg hi
    exact ⟨v, _, rfl⟩
  · refine ⟨s.reg rd, statusRaise s.status e, ?_⟩
    rw [State.setReg_reg_self]
    rfl

/-- Settles O36: NOP ends in `done`, and the other commands write their destination register and STATUS. -/
theorem registerCommandFrame : Obligations.RegisterCommandFrame := by
  intro rd rs rm shift width x i s t hi h
  have hstatus := exec_status_frame h
  obtain hi | rfl := hi
  · have hdest : destination i = some rd ∧ i ≠ .nop := by
      simp only [List.mem_cons, List.not_mem_nil, or_false] at hi
      obtain rfl | rfl | rfl | rfl | rfl | rfl | rfl | rfl := hi <;> exact ⟨rfl, nofun⟩
    obtain ⟨hrd, hnop⟩ := hdest
    obtain ⟨v, st, rfl⟩ := exec_setReg hrd h
    refine ⟨fun r hr => ?_, rfl, rfl, rfl, fun _ => rfl, fun _ => rfl, fun _ => rfl, rfl, rfl, rfl, hstatus⟩
    exact (s.reg_setReg rd r v).trans (if_neg (hr.resolve_right hnop))
  · cases h
    exact ⟨fun _ _ => rfl, rfl, rfl, rfl, fun _ => rfl, fun _ => rfl, fun _ => rfl, rfl, rfl, rfl, hstatus⟩

end Sys2Proof.Machine
end

section
/-! Proofs: what commands do not read. Each is one equation: the effect from the other state is the effect from the
first one, mapped (10_state.md R30, R32; 43_object_codec.md R107 to R111). -/

namespace Sys2Proof.Machine

/-! ### STATUS -/

/-- `s` with another STATUS. -/
def State.withStatus (s : State) (st : Word) : State := { s with status := st }

@[simp] theorem State.withStatus_reg (s : State) (st : Word) (r : Reg) : (s.withStatus st).reg r = s.reg r := rfl

/-- No effect reads STATUS: its checks and its writes come out the same behind each bind. -/
theorem effect_withStatus (i : Instr) (s : State) (st : Word) :
    effect i (s.withStatus st) = (fun t => t.withStatus st) <$> effect i s := by
  cases i with
  | nop | mskupd | iddec => rfl
  | len2dlc rd rs =>
    simp only [effect, len2dlc, State.withStatus_reg]
    cases dlcOf (s.reg rs).toNat <;> rfl
  | extf | insf | dlc2len | pls2len | idenc =>
    simp only [effect, extf, insf, dlc2len, pls2len, idenc, map_bind, map_pure]
    rfl
  | enctx | encrx | enctef =>
    simp only [effect, encTx, encRx, encTef, map_bind, map_pure]
    rfl
  | dectx | decrx | dectef =>
    simp only [effect, decTx, decRx, decTef, map_bind, map_pure]
    rfl

/-- Settles O51: the effect is the same, and `done` and `raise` set ERR whatever STATUS was. -/
theorem noCommandReadsStatus : Obligations.NoCommandReadsStatus := by
  intro i s t st h
  have heffect := effect_withStatus i s st
  show ∃ st', exec i (s.withStatus st) = _ ∧ _
  obtain ⟨u, hu, rfl⟩ | ⟨e, he, rfl⟩ := exec_next_iff.mp h
  · rw [hu] at heffect
    refine ⟨statusDone st, exec_next_iff.mpr (Or.inl ⟨_, heffect, rfl⟩), ?_⟩
    rw [State.done_status, errOf_statusDone, errOf_statusDone]
  · rw [he] at heffect
    refine ⟨statusRaise st e, exec_next_iff.mpr (Or.inr ⟨e, heffect, rfl⟩), ?_⟩
    rw [State.raise_status, errOf_statusRaise, errOf_statusRaise]

/-! ### Registers the object does not carry, and DATA from F.LEN on -/

/-- The header is assembled from carried registers only (43_object_codec.md R108). -/
theorem encHeader_congr {kind : ObjKind} {f f' : Frame} (lay : ObjLayout) (cfg : Word)
    (h : ∀ r, kind.carries r = true → f'.get r = f.get r) :
    encHeader lay kind cfg f' = encHeader lay kind cfg f := by
  have hid : f'.id = f.id := h .id (by cases kind <;> rfl)
  have hide : f'.ide = f.ide := h .ide (by cases kind <;> rfl)
  have hrtr : f'.rtr = f.rtr := h .rtr (by cases kind <;> rfl)
  have hbrs : f'.brs = f.brs := h .brs (by cases kind <;> rfl)
  have hfdf : f'.fdf = f.fdf := h .fdf (by cases kind <;> rfl)
  have hesi : f'.esi = f.esi := h .esi (by cases kind <;> rfl)
  have hdlc : f'.dlc = f.dlc := h .dlc (by cases kind <;> rfl)
  have htag : encTag lay cfg f' kind = encTag lay cfg f kind := by
    cases kind with
    | rx =>
      have hfilhit : f'.filhit = f.filhit := h .filhit rfl
      simp only [encTag, hfilhit]
    | tx | tef =>
      have hseq : f'.seq = f.seq := h .seq rfl
      simp only [encTag, hseq]
  simp only [encHeader, commonFlags, hid, hide, hrtr, hbrs, hfdf, hesi, hdlc, htag]

theorem payloadCheck_congr {f f' : Frame} (p : Nat) (hdlc : f'.dlc = f.dlc) (hlen : f'.len = f.len) :
    payloadCheck f' p = payloadCheck f p := by
  simp only [payloadCheck, hdlc, hlen]

/-- The payload is made of the data bytes below F.LEN; the pad is the last of them (43_object_codec.md R107). -/
theorem payloadBytes_congr {data data' : Memory} {n : Nat} (p : Nat) (h : ∀ a, a < n → data'.read a = data.read a) :
    payloadBytes data' n p = payloadBytes data n p := by
  have hread : data'.readBytes 0 n = data.readBytes 0 n := Memory.readBytes_congr fun b _ hb => h b (by omega)
  have hpad : padByte data' n = padByte data n := by
    unfold padByte
    split
    · rfl
    · exact h _ (by omega)
  rw [payloadBytes, payloadBytes, hread, hpad]

/-- `s` with other frame registers and another DATA. -/
def State.withFrameData (s : State) (frame : Frame) (data : Memory) : State := { s with frame := frame, data := data }

/-- An encoder's effect reads the registers its kind carries and DATA below F.LEN. -/
theorem effect_encoder_withFrameData {kind : ObjKind} {s : State} {frame : Frame} {data : Memory} (pls : Fin 8)
    (hframe : ∀ r, kind.carries r = true → frame.get r = s.frame.get r)
    (hdata : ∀ a, a < s.frame.len.toNat → data.read a = s.data.read a) :
    effect (kind.encoder pls) (s.withFrameData frame data) =
      (fun t => t.withFrameData frame data) <$> effect (kind.encoder pls) s := by
  have hheader := encHeader_congr s.layout s.cfg hframe
  have hpayload := payloadBytes_congr (plsLen pls) hdata
  cases kind with
  | tx =>
    have hlen : frame.len = s.frame.len := hframe .len rfl
    have hcheck := payloadCheck_congr (plsLen pls) (hframe .dlc rfl) hlen
    simp only [ObjKind.encoder, effect, encTx, State.withFrameData, hheader, hcheck, hlen, hpayload, map_bind, map_pure]
    rfl
  | rx =>
    have hlen : frame.len = s.frame.len := hframe .len rfl
    have hts : frame.ts = s.frame.ts := hframe .ts rfl
    have hcheck := payloadCheck_congr (plsLen pls) (hframe .dlc rfl) hlen
    simp only [ObjKind.encoder, effect, encRx, State.withFrameData, hheader, hcheck, hlen, hts, hpayload, map_bind,
      map_pure]
    rfl
  | tef =>
    have hts : frame.ts = s.frame.ts := hframe .ts rfl
    simp only [ObjKind.encoder, effect, encTef, State.withFrameData, hheader, hts, map_bind, map_pure]
    rfl

/-- Settles O50: the effect is the same, and `done` and `raise` read neither the frame nor DATA. -/
theorem encoderReadsOnlyCarriedFields : Obligations.EncoderReadsOnlyCarriedFields := by
  intro kind pls s frame data hframe hdata t h
  have heffect := effect_encoder_withFrameData pls hframe hdata
  show exec (kind.encoder pls) (s.withFrameData frame data) = .next (t.withFrameData frame data)
  obtain ⟨u, hu, rfl⟩ | ⟨e, he, rfl⟩ := exec_next_iff.mp h
  · rw [hu] at heffect
    exact exec_next_iff.mpr (Or.inl ⟨_, heffect, rfl⟩)
  · rw [he] at heffect
    exact exec_next_iff.mpr (Or.inr ⟨e, heffect, rfl⟩)

end Sys2Proof.Machine
end

section
/-! Proofs: host writes to STATUS and CFG, and what the host reads after reset (10_state.md R23, R24, R33;
20_memory.md R47). -/

namespace Sys2Proof.Machine

/-- A host write to a mapped offset other than CMD's is a store (20_memory.md R46). -/
theorem step_write {s : State} {rest : List HostAccess} {loc : Loc} {v : Word}
    (h : s.pending = .write .w32 (BitVec.ofNat 12 loc.offset) v :: rest) (hcmd : loc ≠ .cmd) :
    step s = .next (State.writeLoc { s with pending := rest } loc v) := by
  simp only [step, h, access, mappedAt_offset, hostWrite, if_neg hcmd]

/-- Settles O11: the store of STATUS is `statusHostWrite`. -/
theorem statusWriteClearsAnyErr : Obligations.StatusWriteClearsAnyErr := by
  intro s rest v h
  rw [step_write (loc := .status) h nofun, ← statusHostWrite_eq]
  rfl

/-- Settles O12: the store of CFG is `cfgHostWrite`, which keeps only bit 0 where CFG's reserved bits are 0. -/
theorem cfgWriteSetsSeqw : Obligations.CfgWriteSetsSeqw := by
  intro s rest v h hinv
  obtain ⟨-, -, -, hcfg, -⟩ := hinv
  rw [step_write (loc := .cfg) h nofun, ← cfgHostWrite_eq hcfg]
  rfl

theorem State.reset_reg (r : Reg) : State.reset.reg r = 0 := by
  simp [State.reg, State.reset]

theorem Frame.reset_get (f : FrameReg) : Frame.reset.get f = 0 := by
  cases f <;> rfl

theorem Memory.readWord_nil (a : Nat) : Memory.readWord [] a = 0 := by
  show wordOfBytes 0 0 0 0 = 0
  decide

/-- Settles O14, register by register; an empty buffer reads 0 everywhere. -/
theorem resetValuesAreZero : Obligations.ResetValuesAreZero := by
  refine ⟨fun loc => ?_, fun _ => rfl, fun _ => rfl⟩
  cases loc with
  | gpr r => exact State.reset_reg r
  | frame f => exact Frame.reset_get f
  | data k | obj k => exact Memory.readWord_nil _
  | cmd | status | cfg | objlen => rfl

end Sys2Proof.Machine
end

section
/-! Proofs: which host accesses a step refuses (20_memory.md R45). No command and no store refuses, so a refusal is
admission's own. -/

namespace Sys2Proof.Machine

/-- A command ends with `done` or with `raise` (60_exceptions.md R130). -/
theorem exec_next (i : Instr) (s : State) : ∃ t, exec i s = .next t := by
  rw [exec_eq]
  cases effect i s with
  | ok u => exact ⟨_, complete_ok s u⟩
  | error e => exact ⟨_, complete_error s e⟩

theorem runCommand_next (c : Word) (s : State) : ∃ t, runCommand c s = .next t := by
  unfold runCommand
  split
  · exact exec_next _ s
  · exact ⟨_, rfl⟩

theorem hostWrite_next (s : State) (loc : Loc) (v : Word) : ∃ t, hostWrite s loc v = .next t := by
  unfold hostWrite
  split
  · exact runCommand_next v _
  · exact ⟨_, rfl⟩

theorem access_next_of_admitted {a : HostAccess} (h : a.admitted = true) (s : State) : ∃ t, access a s = .next t := by
  cases a with
  | reset => exact ⟨_, rfl⟩
  | read width offset =>
    simp only [HostAccess.admitted] at h
    simp only [access]
    cases hmap : mappedAt width offset with
    | ok loc => exact ⟨_, rfl⟩
    | error r => rw [hmap] at h; cases h
  | write width offset v =>
    simp only [HostAccess.admitted] at h
    simp only [access]
    cases hmap : mappedAt width offset with
    | ok loc => exact hostWrite_next s loc v
    | error r => rw [hmap] at h; cases h

theorem access_refused_of_not_admitted {a : HostAccess} (h : a.admitted = false) (s : State) :
    ∃ r, access a s = .refused r := by
  cases a with
  | reset => cases h
  | read width offset | write width offset v =>
    simp only [HostAccess.admitted] at h
    simp only [access]
    cases hmap : mappedAt width offset with
    | ok loc => rw [hmap] at h; cases h
    | error r => exact ⟨r, rfl⟩

theorem step_refused_iff {s : State} {a : HostAccess} {rest : List HostAccess} (h : s.pending = a :: rest) :
    (∃ r, step s = .refused r) ↔ a.admitted = false := by
  simp only [step, h]
  constructor
  · rintro ⟨r, hr⟩
    by_contra ha
    obtain ⟨t, ht⟩ := access_next_of_admitted (Bool.eq_true_of_not_eq_false ha) { s with pending := rest }
    cases hr.symm.trans ht
  · exact fun ha => access_refused_of_not_admitted ha _

/-- The three kinds of access that R45 does not admit; the second is a part of the third, as every mapped offset is a
multiple of 4. -/
theorem mappedAt_isSome_eq_false_iff {width : AccessWidth} {offset : BitVec 12} :
    (mappedAt width offset).toOption.isSome = false ↔
      width ≠ .w32 ∨ offset.toNat % 4 ≠ 0 ∨ ∀ loc : Loc, loc.offset ≠ offset.toNat := by
  cases hmap : mappedAt width offset with
  | ok loc =>
    obtain ⟨hwidth, hoffset⟩ := mappedAt_ok_iff.mp hmap
    have hmod := loc.offset_mod
    rw [← hoffset] at hmod
    simpa [Except.toOption, hwidth, hmod] using ⟨loc, hoffset.symm⟩
  | error r =>
    refine iff_of_true rfl ?_
    by_contra hadmitted
    push Not at hadmitted
    obtain ⟨hwidth, -, loc, hoffset⟩ := hadmitted
    cases hmap.symm.trans (mappedAt_ok_iff.mpr ⟨hwidth, hoffset.symm⟩)

/-- Settles O8: a refusal of the step is a refusal of admission, for a read and for a write. -/
theorem unadmittedAccessRefused : Obligations.UnadmittedAccessRefused := by
  rintro s rest width offset v (h | h)
  all_goals exact (step_refused_iff h).trans mappedAt_isSome_eq_false_iff

end Sys2Proof.Machine
end

section
/-! Proofs: what a host read answers, what a host write stores, and the words of the two buffers byte by byte
(20_memory.md R44, R46, R47). -/

namespace Sys2Proof.Machine

/-- What the host reads is the block's, and the accesses still to come are not (log entry 1). -/
theorem State.readLoc_withPending (s : State) (rest : List HostAccess) (loc : Loc) :
    State.readLoc { s with pending := rest } loc = s.readLoc loc := by
  cases loc <;> rfl

theorem step_read {s : State} {rest : List HostAccess} {loc : Loc}
    (h : s.pending = .read .w32 (BitVec.ofNat 12 loc.offset) :: rest) :
    step s = .next (State.hostRead { s with pending := rest } loc) := by
  simp only [step, h, access, mappedAt_offset]

/-- Settles O9: the step is `hostRead`, which adds the reply alone. -/
theorem hostReadChangesNothing : Obligations.HostReadChangesNothing := by
  intro s rest loc h
  rw [step_read h, State.hostRead, State.readLoc_withPending]

/-- Settles O10: the step is the store, whose word and frame `readLoc_writeLoc` gives. -/
theorem hostWriteStoresOnlyItsWord : Obligations.HostWriteStoresOnlyItsWord := by
  intro s rest loc v h hcmd hstatus hcfg
  have hread (other : Loc) := State.readLoc_writeLoc { s with pending := rest } loc other v hstatus hcfg
  refine ⟨_, step_write h hcmd, ?_, fun other hother => ?_, State.writeLoc_port _ loc v⟩
  · rw [hread, if_pos rfl]
  · rw [hread, if_neg hother, State.readLoc_withPending]

theorem Memory.readWord_toNat (m : Memory) (a : Nat) :
    (m.readWord a).toNat = (m.read a).toNat + 2 ^ 8 * (m.read (a + 1)).toNat + 2 ^ 16 * (m.read (a + 2)).toNat +
      2 ^ 24 * (m.read (a + 3)).toNat :=
  wordOfBytes_toNat ..

theorem wordBytes_getElem (w : Word) {k : Nat} (h : k < (wordBytes w).length) :
    (wordBytes w)[k] = w.extractLsb' (8 * k) 8 := by
  rw [wordBytes_length] at h
  interval_cases k <;> rfl

/-- The four bytes of a stored word as numbers, every other byte as before (20_memory.md R44). -/
theorem Memory.read_writeWord_toNat (m : Memory) (a b : Nat) (w : Word) :
    ((m.writeWord a w).read b).toNat =
      if a ≤ b ∧ b < a + 4 then w.toNat / 2 ^ (8 * (b - a)) % 2 ^ 8 else (m.read b).toNat := by
  split
  · next h =>
    obtain ⟨k, rfl⟩ := Nat.exists_eq_add_of_le h.1
    have hk : k < (wordBytes w).length := by rw [wordBytes_length]; omega
    rw [Memory.writeWord, Memory.read_writeBytes_inside m hk, wordBytes_getElem, BitVec.extractLsb'_toNat,
      Nat.shiftRight_eq_div_pow, Nat.add_sub_cancel_left]
  · next h => rw [Memory.read_writeWord_outside m w (by omega)]

/-- Settles O13: a host access to word k of a buffer is `readWord` or `writeWord` at byte 4k. -/
theorem bufferWordsAreLittleEndian : Obligations.BufferWordsAreLittleEndian := fun s v =>
  ⟨fun k => ⟨s.data.readWord_toNat (4 * k), fun a => s.data.read_writeWord_toNat (4 * k) a v⟩,
    fun k => ⟨s.obj.readWord_toNat (4 * k), fun a => s.obj.read_writeWord_toNat (4 * k) a v⟩⟩

end Sys2Proof.Machine
end

section
/-! Proofs: a command word as a number (30_encoding.md R56, R57). Each field is a quotient and a remainder, and a
format's fixed bits say what the opcode is and that the word ends below the format's first reserved bit. -/

namespace Sys2Proof

/-! ### The fields and the fixed bits of a word -/

theorem opOf_eq (c : Word) : opOf c = c.toNat % 32 := by
  have h : opOf c = c.toNat / 2 ^ 0 % 2 ^ 5 := extractField_toNat _ _ (by decide)
  omega

/-- A register number or a payload-size class: the three bits from `lo` on (30_encoding.md R60, R61). -/
theorem ofNat_extractField_val (c : Word) (lo : Nat) :
    (Fin.ofNat 8 (extractField c lo 3).toNat).val = c.toNat / 2 ^ lo % 8 := by
  rw [Fin.val_ofNat, extractField_toNat c lo (by decide)]
  exact Nat.mod_mod _ 8

theorem rdOf_val (c : Word) : (rdOf c).val = c.toNat / 2 ^ 5 % 8 := ofNat_extractField_val c 5

theorem plsOf_val (c : Word) : (plsOf c).val = c.toNat / 2 ^ 5 % 8 := ofNat_extractField_val c 5

theorem rsOf_val (c : Word) : (rsOf c).val = c.toNat / 2 ^ 8 % 8 := ofNat_extractField_val c 8

theorem rmOf_val (c : Word) : (rmOf c).val = c.toNat / 2 ^ 11 % 8 := ofNat_extractField_val c 11

theorem shiftOf_eq (c : Word) : shiftOf c = c.toNat / 2 ^ 11 % 32 := extractField_toNat _ _ (by decide)

theorem widthOf_eq (c : Word) : widthOf c = c.toNat / 2 ^ 16 % 64 := extractField_toNat _ _ (by decide)

/-- The X bit of an identifier kind as a number (30_encoding.md R56). -/
def IdKind.bit : IdKind → Fin 2
  | .standard => 0
  | .extended => 1

theorem eq_xOf_iff (x : IdKind) (c : Word) : x = xOf c ↔ x.bit.val = c.toNat / 2 ^ 11 % 2 := by
  have h : slice c 11 11 = 0 ↔ c.toNat / 2 ^ 11 % 2 = 0 := by
    have hval : (slice c 11 11).toNat = c.toNat / 2 ^ 11 % 2 ^ 1 := extractField_toNat _ _ (by decide)
    rw [← BitVec.toNat_inj, hval]
    rfl
  simp only [xOf, h]
  obtain hx | hx := Nat.mod_two_eq_zero_or_one (c.toNat / 2 ^ 11)
  all_goals
    rw [hx]
    cases x <;> decide

/-- Where the reserved bits of a format begin: the bits from here on are 0 (30_encoding.md R56, R57). -/
def Format.usedBits : Format → Nat
  | .n => 5
  | .f => 22
  | .r3 => 14
  | .r2 => 11
  | .i => 12
  | .o => 8

theorem Format.fixedMask_eq (fmt : Format) :
    fmt.fixedMask = fieldMask 0 5 ||| fieldMask fmt.usedBits (32 - fmt.usedBits) := by
  cases fmt <;> decide

theorem Format.usedBits_range (fmt : Format) : 5 ≤ fmt.usedBits ∧ fmt.usedBits ≤ 32 := by
  cases fmt <;> decide

theorem and_fieldMask (c : Word) (s n : Nat) : c &&& fieldMask s n = extractField c s n <<< s := by
  apply BitVec.eq_of_getLsbD_eq
  intro i hi
  by_cases hs : i < s
  · simp [fieldMask, hs]
  · simp [fieldMask, extractField, hi, hs, Nat.add_sub_cancel' (Nat.le_of_not_lt hs)]

/-- A value shifted into a field above a word that ends below the field. -/
theorem or_shiftLeft_toNat {w v : Word} {s n : Nat} (hn : s + n ≤ 32) (hw : w.toNat < 2 ^ s) (hv : v.toNat < 2 ^ n) :
    (w ||| v <<< s).toNat = w.toNat + 2 ^ s * v.toNat := by
  have hdisjoint := shiftLeft_disjoint (s := 0) (t := s) hw hv (by omega)
  rw [BitVec.shiftLeft_zero] at hdisjoint
  rw [or_toNat_of_disjoint hdisjoint, shiftLeft_toNat hn hv]

/-- What the fixed-bit mask leaves of a word: the opcode, and everything from the first reserved bit on. -/
theorem and_fixedMask_toNat (c : Word) (fmt : Format) :
    (c &&& fmt.fixedMask).toNat = c.toNat % 32 + 2 ^ fmt.usedBits * (c.toNat / 2 ^ fmt.usedBits) := by
  obtain ⟨hlo, hhi⟩ := fmt.usedBits_range
  have hop : (extractField c 0 5).toNat = c.toNat % 32 := opOf_eq c
  have hpow : 2 ^ 5 ≤ 2 ^ fmt.usedBits := Nat.pow_le_pow_right (by decide) hlo
  have hrest : c.toNat / 2 ^ fmt.usedBits < 2 ^ (32 - fmt.usedBits) := by
    rw [Nat.div_lt_iff_lt_mul (by positivity), ← Nat.pow_add, Nat.sub_add_cancel hhi]
    exact c.isLt
  rw [fmt.fixedMask_eq, BitVec.and_or_distrib_left, and_fieldMask, and_fieldMask, BitVec.shiftLeft_zero,
    or_shiftLeft_toNat (n := 32 - fmt.usedBits) (by omega) (by omega) (extractField_lt _ _ (by omega)), hop,
    extractField_toNat _ _ (by omega), Nat.mod_eq_of_lt hrest]

/-- `word & mask = match` on the numbers (30_encoding.md R57). -/
theorem and_fixedMask_eq_iff {c op : Word} {fmt : Format} (hop : op.toNat < 32) :
    c &&& fmt.fixedMask = op ↔ c.toNat < 2 ^ fmt.usedBits ∧ c.toNat % 32 = op.toNat := by
  rw [← BitVec.toNat_inj, and_fixedMask_toNat]
  cases fmt <;> simp only [Format.usedBits] <;> omega

/-! ### The encoder -/

theorem or_natBits_toNat {w : Word} {v s n : Nat} (hn : s + n ≤ 32) (hw : w.toNat < 2 ^ s) (hv : v < 2 ^ n) :
    (w ||| natBits v s).toNat = w.toNat + 2 ^ s * v := by
  have hpow : 2 ^ n ≤ 2 ^ 32 := Nat.pow_le_pow_right (by decide) (by omega)
  have hval : (BitVec.ofNat 32 v).toNat = v := Nat.mod_eq_of_lt (by omega)
  rw [natBits, or_shiftLeft_toNat hn hw (by rwa [hval]), hval]

theorem or_regBits_toNat {w : Word} {s : Nat} (r : Reg) (hs : s + 3 ≤ 32) (hw : w.toNat < 2 ^ s) :
    (w ||| regBits r s).toNat = w.toNat + 2 ^ s * r.val :=
  or_natBits_toNat hs hw r.isLt

theorem xBits_eq (x : IdKind) : xBits x = natBits x.bit.val 11 := by
  cases x <;> rfl

/-- An opcode and two registers. -/
theorem regsWord_toNat {op : Word} (hop : op.toNat < 32) (rd rs : Reg) :
    (op ||| regBits rd 5 ||| regBits rs 8).toNat = op.toNat + (2 ^ 5 * rd.val + 2 ^ 8 * rs.val) := by
  have h := or_regBits_toNat (s := 5) rd (by decide) hop
  rw [or_regBits_toNat rs (by decide) (by omega), h, Nat.add_assoc]

/-- An opcode, two registers and a third field that begins at bit 11: a register, the X bit or a shift. -/
theorem regsFieldWord_toNat {op : Word} {v n : Nat} (hop : op.toNat < 32) (rd rs : Reg) (hn : 11 + n ≤ 32)
    (hv : v < 2 ^ n) :
    (op ||| regBits rd 5 ||| regBits rs 8 ||| natBits v 11).toNat =
      op.toNat + (2 ^ 5 * rd.val + 2 ^ 8 * rs.val + 2 ^ 11 * v) := by
  have h := regsWord_toNat hop rd rs
  rw [or_natBits_toNat hn (by omega) hv, h, Nat.add_assoc]

/-- An opcode, two registers and a field descriptor. -/
theorem descriptorWord_toNat {op : Word} {shift width : Nat} (hop : op.toNat < 32) (rd rs : Reg) (hshift : shift < 32)
    (hwidth : width < 64) :
    (op ||| regBits rd 5 ||| regBits rs 8 ||| natBits shift 11 ||| natBits width 16).toNat =
      op.toNat + (2 ^ 5 * rd.val + 2 ^ 8 * rs.val + 2 ^ 11 * shift + 2 ^ 16 * width) := by
  have h := regsFieldWord_toNat (n := 5) hop rd rs (by decide) hshift
  rw [or_natBits_toNat (n := 6) (by decide) (by omega) hwidth, h, Nat.add_assoc]

/-- The operands of a command, each at its place in the word (30_encoding.md R56). -/
def Instr.operandNat : Instr → Nat
  | .nop | .enctef | .dectx | .decrx | .dectef => 0
  | .extf rd rs shift width | .insf rd rs shift width =>
    2 ^ 5 * rd.val + 2 ^ 8 * rs.val + 2 ^ 11 * shift + 2 ^ 16 * width
  | .mskupd rd rs rm => 2 ^ 5 * rd.val + 2 ^ 8 * rs.val + 2 ^ 11 * rm.val
  | .dlc2len rd rs | .len2dlc rd rs | .pls2len rd rs => 2 ^ 5 * rd.val + 2 ^ 8 * rs.val
  | .idenc rd rs x | .iddec rd rs x => 2 ^ 5 * rd.val + 2 ^ 8 * rs.val + 2 ^ 11 * x.bit.val
  | .enctx pls | .encrx pls => 2 ^ 5 * pls.val

theorem descriptorEncodable_iff {shift width : Nat} :
    descriptorEncodable shift width = true ↔ shift < 32 ∧ width < 64 := by
  simp [descriptorEncodable]

/-- The word of a command is its opcode and its operands added up. -/
theorem encode_toNat {i : Instr} (hwf : i.wf = true) : (encode i).toNat = Laws.opcode i + i.operandNat := by
  cases i with
  | nop | enctef | dectx | decrx | dectef => rfl
  | extf rd rs shift width | insf rd rs shift width =>
    obtain ⟨hshift, hwidth⟩ := descriptorEncodable_iff.mp hwf
    exact descriptorWord_toNat (by decide) rd rs hshift hwidth
  | mskupd rd rs rm => exact regsFieldWord_toNat (n := 3) (by decide) rd rs (by decide) rm.isLt
  | dlc2len rd rs | len2dlc rd rs | pls2len rd rs => exact regsWord_toNat (by decide) rd rs
  | idenc rd rs x | iddec rd rs x =>
    rw [encode, xBits_eq]
    exact regsFieldWord_toNat (n := 1) (by decide) rd rs (by decide) x.bit.isLt
  | enctx pls | encrx pls => exact or_regBits_toNat pls (by decide) (by decide)

end Sys2Proof
end

section
/-! Proofs: the decoder as the inverse of the encoder, and as the opcode map (30_encoding.md R57 to R60). -/

namespace Sys2Proof

/-- The row of the opcode map that stands for a command (30_encoding.md R58). -/
def Instr.row : Instr → OpcodeRow
  | .nop => ⟨"NOP", 0x00, .n⟩
  | .extf _ _ _ _ => ⟨"EXTF", 0x01, .f⟩
  | .insf _ _ _ _ => ⟨"INSF", 0x02, .f⟩
  | .mskupd _ _ _ => ⟨"MSKUPD", 0x03, .r3⟩
  | .dlc2len _ _ => ⟨"DLC2LEN", 0x04, .r2⟩
  | .len2dlc _ _ => ⟨"LEN2DLC", 0x05, .r2⟩
  | .pls2len _ _ => ⟨"PLS2LEN", 0x06, .r2⟩
  | .idenc _ _ _ => ⟨"IDENC", 0x07, .i⟩
  | .iddec _ _ _ => ⟨"IDDEC", 0x08, .i⟩
  | .enctx _ => ⟨"ENCTX", 0x10, .o⟩
  | .encrx _ => ⟨"ENCRX", 0x11, .o⟩
  | .enctef => ⟨"ENCTEF", 0x12, .n⟩
  | .dectx => ⟨"DECTX", 0x14, .n⟩
  | .decrx => ⟨"DECRX", 0x15, .n⟩
  | .dectef => ⟨"DECTEF", 0x16, .n⟩

theorem Instr.row_mem (i : Instr) : i.row ∈ opcodeMap := by
  cases i <;> simp [row, opcodeMap]

theorem Instr.row_pattern_toNat (i : Instr) : i.row.pattern.toNat = Laws.opcode i := by
  cases i <;> rfl

/-- The command with every operand replaced by the one that the fields of `c` hold (30_encoding.md R60, R61). -/
def Instr.withFieldsOf (c : Word) : Instr → Instr
  | .nop => .nop
  | .extf _ _ _ _ => .extf (rdOf c) (rsOf c) (shiftOf c) (widthOf c)
  | .insf _ _ _ _ => .insf (rdOf c) (rsOf c) (shiftOf c) (widthOf c)
  | .mskupd _ _ _ => .mskupd (rdOf c) (rsOf c) (rmOf c)
  | .dlc2len _ _ => .dlc2len (rdOf c) (rsOf c)
  | .len2dlc _ _ => .len2dlc (rdOf c) (rsOf c)
  | .pls2len _ _ => .pls2len (rdOf c) (rsOf c)
  | .idenc _ _ _ => .idenc (rdOf c) (rsOf c) (xOf c)
  | .iddec _ _ _ => .iddec (rdOf c) (rsOf c) (xOf c)
  | .enctx _ => .enctx (plsOf c)
  | .encrx _ => .encrx (plsOf c)
  | .enctef => .enctef
  | .dectx => .dectx
  | .decrx => .decrx
  | .dectef => .dectef

/-! ### What a row says of a word -/

theorem pattern_toNat_lt {row : OpcodeRow} (h : row ∈ opcodeMap) : row.pattern.toNat < 32 :=
  (by decide : ∀ row ∈ opcodeMap, row.pattern.toNat < 32) row h

theorem covers_iff {row : OpcodeRow} (hrow : row ∈ opcodeMap) {c : Word} :
    c &&& row.format.fixedMask = row.pattern ↔
      c.toNat < 2 ^ row.format.usedBits ∧ c.toNat % 32 = row.pattern.toNat :=
  and_fixedMask_eq_iff (pattern_toNat_lt hrow)

theorem opOf_of_covers {row : OpcodeRow} (hrow : row ∈ opcodeMap) {c : Word}
    (hcover : c &&& row.format.fixedMask = row.pattern) : opOf c = row.pattern.toNat :=
  (opOf_eq c).trans ((covers_iff hrow).mp hcover).2

/-- A row is known by its opcode (30_encoding.md R58). -/
theorem row_eq_of_pattern_toNat {row row' : OpcodeRow} (hrow : row ∈ opcodeMap) (hrow' : row' ∈ opcodeMap)
    (h : row.pattern.toNat = row'.pattern.toNat) : row = row' :=
  List.inj_on_of_nodup_map (f := OpcodeRow.pattern) (by decide) hrow hrow' (BitVec.eq_of_toNat_eq h)

/-! ### What the decoder answers -/

/-- A word decodes to a command when the command's row covers it and its fields hold the command's operands: every arm
of the decoder tests the one and reads the other. -/
theorem decode_ok_iff_row {c : Word} {i : Instr} :
    decode c = .ok i ↔ c &&& i.row.format.fixedMask = i.row.pattern ∧ i = i.withFieldsOf c := by
  constructor
  · intro h
    unfold decode at h
    split at h
    case h_16 => cases h
    all_goals
      obtain ⟨hcover, rfl⟩ := accept_ok_iff.mp h
      exact ⟨hcover, rfl⟩
  · rintro ⟨hcover, hfields⟩
    rw [decode, opOf_of_covers i.row_mem hcover]
    cases i
    all_goals exact accept_ok_iff.mpr ⟨hcover, hfields⟩

/-- The same on the numbers, for each command alike: a word below 2^usedBits is the sum of its opcode and of the fields
of its format, and each field is a quotient and a remainder of that sum. -/
theorem row_and_fields_iff {c : Word} {i : Instr} :
    (c &&& i.row.format.fixedMask = i.row.pattern ∧ i = i.withFieldsOf c) ↔
      i.wf = true ∧ c.toNat = Laws.opcode i + i.operandNat := by
  rw [covers_iff i.row_mem, i.row_pattern_toNat]
  cases i
  all_goals
    simp only [Instr.row, Instr.withFieldsOf, Instr.wf, descriptorEncodable_iff, Laws.opcode, Instr.operandNat,
      Format.usedBits, Instr.extf.injEq, Instr.insf.injEq, Instr.mskupd.injEq, Instr.dlc2len.injEq, Instr.len2dlc.injEq,
      Instr.pls2len.injEq, Instr.idenc.injEq, Instr.iddec.injEq, Instr.enctx.injEq, Instr.encrx.injEq, Fin.ext_iff,
      rdOf_val, rsOf_val, rmOf_val, plsOf_val, shiftOf_eq, widthOf_eq, eq_xOf_iff, true_and, and_true]
    omega

/-- Decoding is the inverse of encoding on the well-formed commands (30_encoding.md R57, R59, R60). -/
theorem decode_ok_iff {c : Word} {i : Instr} : decode c = .ok i ↔ i.wf = true ∧ encode i = c := by
  rw [decode_ok_iff_row, row_and_fields_iff]
  refine and_congr_right fun hwf => ?_
  rw [← encode_toNat hwf, BitVec.toNat_inj, eq_comm]

/-- Settles O1: one direction of `decode_ok_iff`, at the command's own word. -/
theorem decodeOfEncode : Obligations.DecodeOfEncode := fun _ hwf => decode_ok_iff.mpr ⟨hwf, rfl⟩

/-- Settles O2: the other direction of `decode_ok_iff`. -/
theorem encodeOfDecode : Obligations.EncodeOfDecode := fun _ _ => decode_ok_iff.mp

/-- The arm of the decoder for a row accepts every word that the row covers. -/
theorem decode_of_covers {row : OpcodeRow} (hrow : row ∈ opcodeMap) {c : Word}
    (hcover : c &&& row.format.fixedMask = row.pattern) : ∃ i, decode c = .ok i := by
  rw [decode, opOf_of_covers hrow hcover]
  fin_cases hrow
  all_goals exact ⟨_, accept_ok_iff.mpr ⟨hcover, rfl⟩⟩

/-- Settles O3: a command's row covers its words, and two rows that cover one word have its opcode. -/
theorem decodeFollowsOpcodeMap : Obligations.DecodeFollowsOpcodeMap := by
  refine fun c => ⟨⟨?_, fun ⟨row, hrow, hcover⟩ => decode_of_covers hrow hcover⟩, ?_⟩
  · rintro ⟨i, hi⟩
    exact ⟨i.row, i.row_mem, (decode_ok_iff_row.mp hi).1⟩
  · intro row hrow row' hrow' hcover hcover'
    exact row_eq_of_pattern_toNat hrow hrow' ((opOf_of_covers hrow hcover).symm.trans (opOf_of_covers hrow' hcover'))

/-! ### Words that are no command (30_encoding.md R62) -/

theorem decode_ne_ok_of_reservedOpcode {c : Word}
    (h : c.toNat % 32 ∈ [0x09, 0x0A, 0x0B, 0x0C, 0x0D, 0x0E, 0x0F, 0x13, 0x17, 0x18, 0x19, 0x1A, 0x1B, 0x1C, 0x1D,
      0x1E, 0x1F])
    (i : Instr) : decode c ≠ .ok i := by
  intro hi
  obtain ⟨hcover, -⟩ := decode_ok_iff_row.mp hi
  rw [((covers_iff i.row_mem).mp hcover).2, i.row_pattern_toNat] at h
  cases i <;> simp [Laws.opcode] at h

theorem decode_ne_ok_of_reservedBits {c : Word} {row : OpcodeRow} (hrow : row ∈ opcodeMap)
    (hop : row.pattern.toNat = c.toNat % 32) (hfixed : c &&& row.format.fixedMask ≠ row.pattern) (i : Instr) :
    decode c ≠ .ok i := by
  intro hi
  obtain ⟨hcover, -⟩ := decode_ok_iff_row.mp hi
  have heq : row = i.row := row_eq_of_pattern_toNat hrow i.row_mem (hop.trans ((covers_iff i.row_mem).mp hcover).2)
  exact hfixed (heq ▸ hcover)

end Sys2Proof
end

section
/-! Proofs: a step whose host access is a write to CMD (20_memory.md R46; 30_encoding.md R55, R62). -/

namespace Sys2Proof.Machine

theorem step_write_cmd {s : State} {rest : List HostAccess} {c : Word} (h : s.pending = .write .w32 0x000 c :: rest) :
    step s = runCommand c { s with pending := rest, cmd := c } := by
  have hmap : mappedAt .w32 0x000 = .ok .cmd := mappedAt_offset .cmd
  simp only [step, h, access, hmap]
  rfl

/-- Settles O5: the step runs the word, and a word that decodes runs as its command. -/
theorem stepRunsDecodedCommand : Obligations.StepRunsDecodedCommand := by
  intro s rest c i h hdecode
  rw [step_write_cmd h, runCommand, hdecode]

/-- A word that is no command ends with ILLEGAL_CMD, code 1 (30_encoding.md R62; 60_exceptions.md R131). -/
theorem runCommand_of_ne_ok {c : Word} (h : ∀ i, decode c ≠ .ok i) (s : State) :
    runCommand c s = .next (s.endedWith 1) := by
  unfold runCommand
  split
  · next i hi => exact absurd hi (h i)
  · exact congrArg _ (s.raise_eq_endedWith .illegalCmd)

/-- Settles O6: neither sort of word decodes. -/
theorem illegalWordRaisesIllegalCmd : Obligations.IllegalWordRaisesIllegalCmd := by
  intro s rest c h hbad
  rw [step_write_cmd h]
  obtain hreserved | ⟨row, hrow, hop, hfixed⟩ := hbad
  · exact runCommand_of_ne_ok (decode_ne_ok_of_reservedOpcode hreserved) _
  · exact runCommand_of_ne_ok (decode_ne_ok_of_reservedBits hrow hop hfixed) _

end Sys2Proof.Machine
end

section
/-! Proofs: how a command ends, in the terms of the statements (60_exceptions.md R130, R131). -/

namespace Sys2Proof.Machine

/-- A command whose effect succeeds answers the effect's state, ended with ERR 0. -/
theorem exec_of_effect_ok {i : Instr} {s t : State} (h : effect i s = .ok t) : exec i s = .next t.endedOk := by
  rw [exec_eq, h, complete_ok, State.done_eq_endedOk]

/-- A command whose effect fails answers the state it started in, ended with the error's code. -/
theorem exec_of_effect_error {i : Instr} {s : State} {e : Err} (h : effect i s = .error e) :
    exec i s = .next (s.endedWith e.code.toNat) := by
  rw [exec_eq, h, complete_error, State.raise_eq_endedWith]

@[simp] theorem State.reg_endedOk (s : State) (r : Reg) : s.endedOk.reg r = s.reg r := rfl

/-- Settles O16: NOP's effect is the state itself. -/
theorem nopClearsErr : Obligations.NopClearsErr := fun _ => exec_of_effect_ok rfl

end Sys2Proof.Machine
end

section
/-! Proofs: the masked update of a word and the two field primitives (40_bitfield.md R70, R75 to R77). An insertion is a
masked update under the field's mask, so what a masked update keeps, an insertion keeps. -/

namespace Sys2Proof.Machine

theorem maskedUpdate_getLsbD (old new m : Word) {b : Nat} (hb : b < 32) :
    (maskedUpdate old new m).getLsbD b = if m.getLsbD b then new.getLsbD b else old.getLsbD b := by
  simp only [maskedUpdate, BitVec.getLsbD_or, BitVec.getLsbD_and, BitVec.getLsbD_not]
  cases m.getLsbD b <;> simp [hb]

theorem maskedUpdate_and_mask (old new m : Word) : maskedUpdate old new m &&& m = new &&& m := by
  apply BitVec.eq_of_getLsbD_eq
  intro b hb
  rw [BitVec.getLsbD_and, BitVec.getLsbD_and, maskedUpdate_getLsbD _ _ _ hb]
  cases m.getLsbD b <;> simp

theorem maskedUpdate_and_not_mask (old new m : Word) : maskedUpdate old new m &&& ~~~ m = old &&& ~~~ m := by
  apply BitVec.eq_of_getLsbD_eq
  intro b hb
  rw [BitVec.getLsbD_and, BitVec.getLsbD_and, BitVec.getLsbD_not, maskedUpdate_getLsbD _ _ _ hb]
  cases m.getLsbD b <;> simp

theorem maskedUpdate_self (v m : Word) : maskedUpdate v v m = v := by
  apply BitVec.eq_of_getLsbD_eq
  intro b hb
  rw [maskedUpdate_getLsbD _ _ _ hb, ite_self]

/-- A value with no bit outside a mask lies inside it. -/
theorem and_eq_self_of_and_not_eq_zero {v m : Word} (h : v &&& ~~~ m = 0) : v &&& m = v := by
  simpa [maskedUpdate, h] using maskedUpdate_self v m

theorem insertField_eq_maskedUpdate (w v : Word) (shift width : Nat) :
    insertField w shift width v = maskedUpdate w (v <<< shift) (fieldMask shift width) := by
  rw [insertField, maskedUpdate, BitVec.shiftLeft_and_distrib, fieldMask]

/-- An insertion keeps every bit outside the field (40_bitfield.md R76). -/
theorem insertField_and_not_fieldMask (w v : Word) (shift width : Nat) :
    insertField w shift width v &&& ~~~ fieldMask shift width = w &&& ~~~ fieldMask shift width := by
  rw [insertField_eq_maskedUpdate, maskedUpdate_and_not_mask]

/-- The value inserted in a field comes back out of it (40_bitfield.md R76). -/
theorem extractField_insertField (w : Word) {v : Word} {shift width : Nat} (hfield : shift + width ≤ 32)
    (hv : v.toNat < 2 ^ width) : extractField (insertField w shift width v) shift width = v := by
  refine extractField_eq hfield hv fun i hi => ?_
  rw [insertField_getLsbD _ _ _ _ _ (by omega) (by omega), if_pos (by omega), Nat.add_sub_cancel_left]

end Sys2Proof.Machine
end

section
/-! Proofs: EXTF, INSF and MSKUPD (40_bitfield.md R71, R73 to R77). One equation per command and way it ends, then the
statements. -/

namespace Sys2Proof.Machine

/-! ### How each command ends -/

theorem require_descriptorLegal_of_illegal {shift width : Nat} (h : 32 < width ∨ 32 < shift + width) :
    require (descriptorLegal shift width) .badFieldSpec = .error .badFieldSpec :=
  require_false _ (by simp only [descriptorLegal, Bool.and_eq_true, decide_eq_true_eq]; omega)

theorem exec_extf_legal (rd rs : Reg) {shift width : Nat} (s : State) (h : width ≤ 32 ∧ shift + width ≤ 32) :
    exec (.extf rd rs shift width) s =
      .next (s.setReg rd (extractField (s.reg rs) shift width)).endedOk :=
  exec_of_effect_ok (extf_ok_iff.mpr ⟨h, rfl⟩)

theorem exec_extf_illegal (rd rs : Reg) {shift width : Nat} (s : State) (h : 32 < width ∨ 32 < shift + width) :
    exec (.extf rd rs shift width) s = .next (s.endedWith 2) := by
  refine exec_of_effect_error (e := .badFieldSpec) ?_
  rw [effect, extf, require_descriptorLegal_of_illegal h, error_bind]

theorem exec_insf_legal (rd : Reg) {rs : Reg} {shift width : Nat} {s : State} (h : width ≤ 32 ∧ shift + width ≤ 32)
    (hv : (s.reg rs).toNat < 2 ^ width) :
    exec (.insf rd rs shift width) s =
      .next (s.setReg rd (insertField (s.reg rd) shift width (s.reg rs))).endedOk := by
  refine exec_of_effect_ok (insf_ok_iff.mpr ⟨h, ?_, rfl⟩)
  rw [mask_toNat h.1]
  exact Nat.le_sub_one_of_lt hv

theorem exec_insf_fieldRange (rd : Reg) {rs : Reg} {shift width : Nat} {s : State}
    (h : width ≤ 32 ∧ shift + width ≤ 32) (hv : 2 ^ width ≤ (s.reg rs).toNat) :
    exec (.insf rd rs shift width) s = .next (s.endedWith 3) := by
  have hlegal : descriptorLegal shift width := by simp [descriptorLegal, h]
  have hrange : ¬ (s.reg rs).toNat ≤ (mask width).toNat := by
    have hpos : 0 < 2 ^ width := Nat.two_pow_pos width
    rw [mask_toNat h.1]
    omega
  refine exec_of_effect_error (e := .fieldRange) ?_
  rw [effect, insf, require_true _ hlegal, ok_bind, require_false _ hrange, error_bind]

theorem exec_insf_illegal (rd rs : Reg) {shift width : Nat} (s : State) (h : 32 < width ∨ 32 < shift + width) :
    exec (.insf rd rs shift width) s = .next (s.endedWith 2) := by
  refine exec_of_effect_error (e := .badFieldSpec) ?_
  rw [effect, insf, require_descriptorLegal_of_illegal h, error_bind]

theorem exec_mskupd (rd rs rm : Reg) (s : State) :
    exec (.mskupd rd rs rm) s = .next (s.setReg rd (maskedUpdate (s.reg rd) (s.reg rs) (s.reg rm))).endedOk :=
  exec_of_effect_ok rfl

/-! ### The statements -/

/-- Settles O17: `extractField` as a number, and the failed check of the descriptor. -/
theorem extfWritesField : Obligations.ExtfWritesField := by
  refine fun rd rs shift width s => ⟨fun h => ?_, exec_extf_illegal rd rs s⟩
  have hfield : extractField (s.reg rs) shift width = BitVec.ofNat 32 ((s.reg rs).toNat / 2 ^ shift % 2 ^ width) := by
    rw [← extractField_toNat _ _ h.1, BitVec.ofNat_toNat, BitVec.setWidth_eq]
  rw [exec_extf_legal rd rs s h, hfield]
  rfl

/-- Settles O18: `insertField` bit by bit, and the two failed checks in their order. -/
theorem insfReplacesField : Obligations.InsfReplacesField := by
  refine fun rd rs shift width s => ⟨?_, ?_, exec_insf_illegal rd rs s⟩
  · rintro ⟨hwidth, hsum, hv⟩
    exact ⟨_, exec_insf_legal rd ⟨hwidth, hsum⟩ hv, fun b hb => insertField_getLsbD _ _ _ _ _ hwidth hb⟩
  · rintro ⟨hwidth, hsum, hv⟩
    exact exec_insf_fieldRange rd ⟨hwidth, hsum⟩ hv

/-- Settles O19: `maskedUpdate` bit by bit. -/
theorem mskupdUpdatesMaskedBits : Obligations.MskupdUpdatesMaskedBits := fun rd rs rm s =>
  ⟨_, exec_mskupd rd rs rm s, fun _ hb => maskedUpdate_getLsbD _ _ _ hb⟩

/-- Settles O40: the laws of the primitives, and INSF and EXTF write what the primitives give. -/
theorem fieldRoundTrip : Obligations.FieldRoundTrip := by
  intro shift width hwidth hsum
  refine ⟨fun w v hv => ⟨extractField_insertField w hsum hv, insertField_and_not_fieldMask w v shift width⟩, ?_⟩
  intro rd rs ra s hv
  refine ⟨_, _, exec_insf_legal rd ⟨hwidth, hsum⟩ hv, exec_extf_legal ra rd _ ⟨hwidth, hsum⟩, ?_, ?_⟩
  · simp [extractField_insertField _ hsum hv]
  · simp [insertField_and_not_fieldMask]

/-- Settles O41: a masked update takes the value under the mask, which is all of the value, and keeps the rest. -/
theorem maskedUpdateWritesDefault : Obligations.MaskedUpdateWritesDefault := by
  intro rd rs rm s h
  refine ⟨_, exec_mskupd rd rs rm s, ?_, ?_⟩
  · simp [maskedUpdate_and_mask, and_eq_self_of_and_not_eq_zero h]
  · simp [maskedUpdate_and_not_mask]

/-- Settles O4: the words are the encodings of well-formed commands, which `decode_ok_iff` turns into decoding. -/
theorem ruleExampleWordsDecode : Obligations.RuleExampleWordsDecode := by
  simp only [Obligations.RuleExampleWordsDecode, decode_ok_iff]
  decide

end Sys2Proof.Machine
end

section
/-! Proofs: the tables DLC_LEN and PLS_LEN (41_dlc_size.md R80 to R82, R86, R87). Every fact rests on the order of
DLC_LEN and on PLS_LEN being its tail. -/

namespace Sys2Proof.Machine

/-! ### Order -/

theorem dlcLenTable_sortedLT : dlcLenTable.SortedLT := by decide

theorem dlcLen_eq_getElem {d : Nat} (hd : d < dlcLenTable.length) : dlcLen d = dlcLenTable[d] :=
  List.getD_eq_getElem _ _ hd

theorem dlcLen_lt_dlcLen_iff {d e : Nat} (hd : d ≤ 15) (he : e ≤ 15) : dlcLen d < dlcLen e ↔ d < e := by
  rw [dlcLen_eq_getElem (Nat.lt_succ_of_le hd), dlcLen_eq_getElem (Nat.lt_succ_of_le he)]
  exact dlcLenTable_sortedLT.getElem_lt_getElem_iff

theorem dlcLen_le_dlcLen_iff {d e : Nat} (hd : d ≤ 15) (he : e ≤ 15) : dlcLen d ≤ dlcLen e ↔ d ≤ e := by
  rw [← not_lt, dlcLen_lt_dlcLen_iff he hd, not_lt]

/-- PLS_LEN is the last half of DLC_LEN; past their ends both read 0. -/
theorem plsLen_eq_dlcLen (k : Nat) : plsLen k = dlcLen (k + 8) := by
  have htail : plsLenTable = dlcLenTable.drop 8 := rfl
  rw [plsLen, dlcLen, htail, List.getD_eq_getElem?_getD, List.getElem?_drop, Nat.add_comm, List.getD_eq_getElem?_getD]

/-- Settles O43: the order of DLC_LEN, at the codes 8 to 15 for PLS_LEN. -/
theorem sizeTablesAreOrdered : Obligations.SizeTablesAreOrdered := by
  refine ⟨fun d e h => (dlcLen_lt_dlcLen_iff d.is_le e.is_le).mpr h, fun k l h => ?_, fun k => plsLen_eq_dlcLen k,
    fun d k => ?_⟩
  · rw [plsLen_eq_dlcLen, plsLen_eq_dlcLen]
    exact (dlcLen_lt_dlcLen_iff (by omega) (by omega)).mpr (by omega)
  · rw [plsLen_eq_dlcLen]
    exact dlcLen_le_dlcLen_iff d.is_le (by omega)

/-! ### The inverse -/

/-- `dlcOf` is the inverse of DLC_LEN on the codes 0 to 15: the order leaves no earlier code with the same length
(41_dlc_size.md R81). -/
theorem dlcOf_eq_some_iff {n d : Nat} : dlcOf n = some d ↔ d ≤ 15 ∧ dlcLen d = n := by
  rw [dlcOf, List.idxOf?_eq_some_iff]
  constructor
  · rintro ⟨hd, hn, -⟩
    exact ⟨Nat.le_of_lt_succ hd, (dlcLen_eq_getElem hd).trans hn⟩
  · rintro ⟨hd, rfl⟩
    refine ⟨Nat.lt_succ_of_le hd, (dlcLen_eq_getElem _).symm, fun e he heq => ?_⟩
    have hlt : dlcLen e < dlcLen d := (dlcLen_lt_dlcLen_iff (by omega) hd).mpr he
    exact hlt.ne ((dlcLen_eq_getElem _).trans heq)

theorem dlcOf_eq_none_iff {n : Nat} : dlcOf n = none ↔ n ∉ dlcLenTable := List.idxOf?_eq_none_iff

theorem dlcOf_dlcLen {d : Nat} (hd : d ≤ 15) : dlcOf (dlcLen d) = some d := dlcOf_eq_some_iff.mpr ⟨hd, rfl⟩

/-! ### The rows as the statements write them -/

/-- The rows (code, length) of R80. -/
def dlcLenRows : List (Nat × Nat) :=
  [(0, 0), (1, 1), (2, 2), (3, 3), (4, 4), (5, 5), (6, 6), (7, 7), (8, 8), (9, 12), (10, 16), (11, 20), (12, 24),
    (13, 32), (14, 48), (15, 64)]

/-- The rows (class, size) of R82. -/
def plsLenRows : List (Nat × Nat) := [(0, 8), (1, 12), (2, 16), (3, 20), (4, 24), (5, 32), (6, 48), (7, 64)]

theorem dlcLen_of_mem_rows {d len : Nat} (h : (d, len) ∈ dlcLenRows) : d ≤ 15 ∧ dlcLen d = len :=
  (by decide : ∀ row ∈ dlcLenRows, row.1 ≤ 15 ∧ dlcLen row.1 = row.2) _ h

theorem plsLen_of_mem_rows {k p : Nat} (h : (k, p) ∈ plsLenRows) : k ≤ 7 ∧ plsLen k = p :=
  (by decide : ∀ row ∈ plsLenRows, row.1 ≤ 7 ∧ plsLen row.1 = row.2) _ h

end Sys2Proof.Machine
end

section
/-! Proofs: DLC2LEN, LEN2DLC and PLS2LEN (41_dlc_size.md R83 to R86). One equation per command and way it ends, then the
statements. -/

namespace Sys2Proof.Machine

/-! ### How each command ends -/

theorem exec_dlc2len_code (rd : Reg) {rs : Reg} {s : State} (h : (s.reg rs).toNat ≤ 15) :
    exec (.dlc2len rd rs) s = .next (s.setReg rd (BitVec.ofNat 32 (dlcLen (s.reg rs).toNat))).endedOk :=
  exec_of_effect_ok (dlc2len_ok_iff.mpr ⟨h, rfl⟩)

theorem exec_dlc2len_fieldRange (rd : Reg) {rs : Reg} {s : State} (h : 15 < (s.reg rs).toNat) :
    exec (.dlc2len rd rs) s = .next (s.endedWith 3) := by
  refine exec_of_effect_error (e := .fieldRange) ?_
  rw [effect, dlc2len, require_false _ (Nat.not_le_of_lt h), error_bind]

theorem exec_len2dlc_length (rd : Reg) {rs : Reg} {s : State} {d : Nat} (h : dlcOf (s.reg rs).toNat = some d) :
    exec (.len2dlc rd rs) s = .next (s.setReg rd (BitVec.ofNat 32 d)).endedOk :=
  exec_of_effect_ok (len2dlc_ok_iff.mpr ⟨d, h, rfl⟩)

theorem exec_len2dlc_invalidDlc (rd : Reg) {rs : Reg} {s : State} (h : dlcOf (s.reg rs).toNat = none) :
    exec (.len2dlc rd rs) s = .next (s.endedWith 4) := by
  refine exec_of_effect_error (e := .invalidDlc) ?_
  simp only [effect, len2dlc, h]

theorem exec_pls2len_class (rd : Reg) {rs : Reg} {s : State} (h : (s.reg rs).toNat ≤ 7) :
    exec (.pls2len rd rs) s = .next (s.setReg rd (BitVec.ofNat 32 (plsLen (s.reg rs).toNat))).endedOk :=
  exec_of_effect_ok (pls2len_ok_iff.mpr ⟨h, rfl⟩)

theorem exec_pls2len_fieldRange (rd : Reg) {rs : Reg} {s : State} (h : 7 < (s.reg rs).toNat) :
    exec (.pls2len rd rs) s = .next (s.endedWith 3) := by
  refine exec_of_effect_error (e := .fieldRange) ?_
  rw [effect, pls2len, require_false _ (Nat.not_le_of_lt h), error_bind]

theorem State.errOf_endedOk (s : State) : errOf s.endedOk.status = 0 := by
  rw [← State.done_eq_endedOk, State.done_status, errOf_statusDone]

/-! ### The statements -/

/-- Settles O20: the row is the entry of DLC_LEN at the code. -/
theorem dlc2lenWritesLength : Obligations.Dlc2lenWritesLength := by
  refine fun rd rs s => ⟨?_, exec_dlc2len_fieldRange rd⟩
  rintro d len hrow rfl
  obtain ⟨hcode, rfl⟩ := dlcLen_of_mem_rows hrow
  exact exec_dlc2len_code rd hcode

/-- Settles O21: `dlcOf` gives the row's code, and nothing outside the table DLC_LEN. -/
theorem len2dlcWritesCode : Obligations.Len2dlcWritesCode := by
  refine fun rd rs s => ⟨fun d len hrow hlen => ?_, fun hcount => ?_⟩
  · exact exec_len2dlc_length rd (dlcOf_eq_some_iff.mpr (hlen ▸ dlcLen_of_mem_rows hrow))
  · exact exec_len2dlc_invalidDlc rd (dlcOf_eq_none_iff.mpr hcount)

/-- Settles O22: the row is the entry of PLS_LEN at the class. -/
theorem pls2lenWritesSize : Obligations.Pls2lenWritesSize := by
  refine fun rd rs s => ⟨?_, exec_pls2len_fieldRange rd⟩
  rintro k p hrow rfl
  obtain ⟨hclass, rfl⟩ := plsLen_of_mem_rows hrow
  exact exec_pls2len_class rd hclass

/-- Settles O42: the length that DLC2LEN writes fits a register, and `dlcOf` gives its code again. -/
theorem dlcBijection : Obligations.DlcBijection := by
  refine ⟨fun d => dlcOf_dlcLen, fun n d => dlcOf_eq_some_iff.mp, fun ra rb rs s hcode => ?_⟩
  have hlen : (BitVec.ofNat 32 (dlcLen (s.reg rs).toNat)).toNat = dlcLen (s.reg rs).toNat :=
    (BitVec.toNat_ofNat ..).trans (Nat.mod_eq_of_lt ((dlcLen_le _).trans_lt (by decide)))
  refine ⟨_, _, exec_dlc2len_code ra hcode, exec_len2dlc_length rb (d := (s.reg rs).toNat) ?_, ?_,
    State.errOf_endedOk _, State.errOf_endedOk _⟩
  · rw [State.reg_endedOk, State.reg_setReg_same, hlen, dlcOf_dlcLen hcode]
  · rw [State.reg_endedOk, State.reg_setReg_same, BitVec.ofNat_toNat, BitVec.setWidth_eq]

end Sys2Proof.Machine
end

section
/-! Proofs: the identifier word and back (42_identifier.md R91, R92, R95). Encoding the identifier of a word gives the
word masked to its fields, so the word comes back exactly when it lies inside them. -/

namespace Sys2Proof.Machine

/-! ### An identifier that does not fit -/

/-- The width of an identifier: 11 bits of SID, and 18 bits of EID for an extended one (42_identifier.md R90). -/
def idWidth : IdKind → Nat
  | .standard => 11
  | .extended => 29

theorem idEncode_fieldRange {lay : ObjLayout} {id : Word} {x : IdKind} (h : 2 ^ idWidth x ≤ id.toNat) :
    idEncode lay id x = .error .fieldRange := by
  cases x with
  | standard =>
    have hid : ¬ id.toNat ≤ 0x7FF := Nat.not_le_of_lt h
    rw [idEncode, require_false _ hid, error_bind]
  | extended =>
    have hid : ¬ id.toNat ≤ 0x1FFFFFFF := Nat.not_le_of_lt h
    rw [idEncode, require_false _ hid, error_bind]

/-! ### The word of a word's identifier -/

/-- A word lies inside a mask exactly when it has no bit outside it. -/
theorem and_eq_self_iff {w m : Word} : w &&& m = w ↔ w &&& ~~~ m = 0 := by
  refine ⟨fun h => ?_, and_eq_self_of_and_not_eq_zero⟩
  rw [← h, BitVec.and_assoc, BitVec.and_not_self]
  exact BitVec.and_zero

/-- The bits of a word that SID and EID hold, each field shifted to its place. -/
theorem and_headerMask0 (lay : ObjLayout) (w : Word) :
    w &&& headerMask0 lay = (extractField w lay.sid 11 <<< lay.sid) ||| (extractField w lay.eid 18 <<< lay.eid) := by
  rw [headerMask0, BitVec.and_or_distrib_left, and_fieldMask, and_fieldMask]

/-- An identifier put together from its upper 11 and lower 18 bits gives both parts back. -/
theorem slice_idParts {hi lo : Word} (hhi : hi.toNat < 2 ^ 11) (hlo : lo.toNat < 2 ^ 18) :
    ((hi <<< 18) ||| lo).toNat < 2 ^ 29 ∧ slice ((hi <<< 18) ||| lo) 28 18 = hi ∧
      slice ((hi <<< 18) ||| lo) 17 0 = lo := by
  have hid := idParts_toNat hhi hlo
  have hfits : ((hi <<< 18) ||| lo).toNat < 2 ^ 29 := by omega
  refine ⟨hfits, BitVec.eq_of_toNat_eq ?_, BitVec.eq_of_toNat_eq ?_⟩
  · rw [slice_sid_toNat hfits]
    omega
  · rw [slice_eid_toNat]
    omega

theorem idEncode_idDecode_standard (lay : ObjLayout) (w : Word) :
    idEncode lay (idDecode lay w .standard) .standard = .ok (w &&& fieldMask lay.sid 11) := by
  rw [idDecode, slice_sid, idEncode_standard (extractField_lt _ _ (by decide)), and_fieldMask]

theorem idEncode_idDecode_extended (lay : ObjLayout) (w : Word) :
    idEncode lay (idDecode lay w .extended) .extended = .ok (w &&& headerMask0 lay) := by
  obtain ⟨hfits, hsid, heid⟩ := slice_idParts (extractField_lt w lay.sid (show 11 ≤ 32 by decide))
    (extractField_lt w lay.eid (show 18 ≤ 32 by decide))
  rw [idDecode, slice_sid, slice_eid, idEncode_extended hfits, hsid, heid, and_headerMask0]

/-- The word of a standard identifier leaves the field EID empty (42_identifier.md R91). -/
theorem extractField_eid_standard {lay : ObjLayout} {id : Word} (hlay : lay.NonOverlapping) (h : id.toNat < 2 ^ 11) :
    extractField (id <<< lay.sid) lay.eid 18 = 0 := by
  obtain ⟨-, heid, hapart⟩ := idFields_ok hlay
  refine extractField_eq heid (by decide) fun i hi => ?_
  rw [getLsbD_shiftLeft_disjoint h hapart hi]
  exact BitVec.getLsbD_zero.symm

/-- Settles O44: decoding inverts the encoding, and encoding a word's identifier masks the word to its fields. -/
theorem identifierRoundTrip : Obligations.IdentifierRoundTrip := by
  refine ⟨fun lay hlay => ⟨fun id hid => ?_, fun id hid => ?_, fun w => ?_, fun w => ?_⟩, by decide⟩
  · exact ⟨_, idEncode_standard hid, idDecode_standard hlay hid, extractField_eid_standard hlay hid⟩
  · exact ⟨_, idEncode_extended hid, idDecode_extended hlay hid⟩
  · rw [idEncode_idDecode_standard, Except.ok.injEq, and_eq_self_iff]
  · rw [idEncode_idDecode_extended, Except.ok.injEq, and_eq_self_iff]

end Sys2Proof.Machine
end

section
/-! Proofs: IDENC and IDDEC (42_identifier.md R93, R94). One equation per command and way it ends, then the
statements. -/

namespace Sys2Proof.Machine

/-! ### How each command ends -/

/-- A register write in the terms of the statements: the written word as a number. -/
theorem State.setReg_of_toNat (s : State) (r : Reg) {v : Word} {n : Nat} (h : v.toNat = n) :
    s.setReg r v = { s with gpr := s.gpr.set r (BitVec.ofNat 32 n) } := by
  rw [← h, BitVec.ofNat_toNat, BitVec.setWidth_eq, State.setReg]

theorem exec_idenc_word (rd : Reg) {rs : Reg} {x : IdKind} {s : State} {w : Word} {n : Nat}
    (h : idEncode s.layout (s.reg rs) x = .ok w) (hn : w.toNat = n) :
    exec (.idenc rd rs x) s = .next (State.endedOk { s with gpr := s.gpr.set rd (BitVec.ofNat 32 n) }) := by
  rw [← s.setReg_of_toNat rd hn]
  exact exec_of_effect_ok (idenc_ok_iff.mpr ⟨w, h, rfl⟩)

theorem exec_idenc_fieldRange (rd : Reg) {rs : Reg} {x : IdKind} {s : State} (h : 2 ^ idWidth x ≤ (s.reg rs).toNat) :
    exec (.idenc rd rs x) s = .next (s.endedWith 3) := by
  refine exec_of_effect_error (e := .fieldRange) ?_
  rw [effect, idenc, idEncode_fieldRange h, error_bind]

/-- IDDEC under the kind that an IDE flag selects, with the identifier as R92's arithmetic gives it. -/
theorem exec_iddec (rd rs : Reg) (ide : Word) (s : State) :
    exec (.iddec rd rs (idKindOf ide)) s = .next (State.endedOk { s with
      gpr := s.gpr.set rd (BitVec.ofNat 32 (idOfWordNat s.layout (s.reg rs).toNat ide.toNat)) }) := by
  rw [← s.setReg_of_toNat rd (idDecode_toNat s.layout (s.reg rs) ide)]
  exact exec_of_effect_ok rfl

/-! ### The statements -/

/-- Settles O23: the identifier word of each kind as a number, and the failed check of the identifier. -/
theorem idencWritesIdentifierWord : Obligations.IdencWritesIdentifierWord := by
  refine fun rd rs s => ⟨fun hid hlay => ?_, exec_idenc_fieldRange rd (x := .standard), fun hid hlay => ?_,
    exec_idenc_fieldRange rd (x := .extended)⟩
  · exact exec_idenc_word rd (idEncode_standard hid) (shiftLeft_toNat (idFields_ok hlay).1 hid)
  · exact exec_idenc_word rd (idEncode_extended hid) (idWord_extended_toNat hlay hid)

/-- Settles O24: the IDE flags 0 and 1 select the two kinds. -/
theorem iddecWritesIdentifier : Obligations.IddecWritesIdentifier := fun rd rs s =>
  ⟨exec_iddec rd rs 0 s, exec_iddec rd rs 1 s⟩

end Sys2Proof.Machine
end

section
/-! Proofs: what ENCTX, ENCRX and ENCTEF store in OBJ (43_object_codec.md R102, R103, R106 to R111). `StoredImage` says
every byte of it, once for the three kinds. -/

namespace Sys2Proof.Machine

/-! ### The two header words of a stored image -/

theorem readWord_idWord (m : Memory) (w0 w1 : Word) (tail : List Byte) :
    (m.writeBytes 0 (wordBytes w0 ++ wordBytes w1 ++ tail)).readWord 0 = w0 := by
  rw [List.append_assoc]
  exact m.readWord_image w0 _

theorem readWord_flagsWord (m : Memory) (w0 w1 : Word) (tail : List Byte) :
    (m.writeBytes 0 (wordBytes w0 ++ wordBytes w1 ++ tail)).readWord 4 = w1 :=
  m.readWord_writeBytes (pre := wordBytes w0) w1 rfl

/-! ### All of it -/

/-- F.LEN of a frame that an encoder with a payload takes is at most the payload's size. -/
theorem len_le_plsLen {kind : ObjKind} {pls : Fin 8} {s : State} (hcode : encodeErrorCode kind pls s = 0)
    (hk : kind ≠ .tef) : s.frame.len.toNat ≤ plsLen pls := by
  obtain ⟨-, -, -, -, -, hpay⟩ := encodeErrorCode_eq_zero_iff.mp hcode
  obtain ⟨hlen, hfit⟩ := hpay hk
  exact hlen.trans hfit

theorem image_length {kind : ObjKind} {pls : Fin 8} {s : State} (hcode : encodeErrorCode kind pls s = 0)
    (w0 w1 : Word) : (wordBytes w0 ++ wordBytes w1 ++ imageTail kind pls s).length = kind.imageSize pls := by
  have hpayload (hk : kind ≠ .tef) := payloadBytes_length (data := s.data) (len_le_plsLen hcode hk)
  cases kind with
  | tx => simp only [imageTail, List.length_append, wordBytes_length, hpayload nofun, ObjKind.imageSize]
  | rx =>
    simp only [imageTail, List.length_append, wordBytes_length, hpayload nofun, ObjKind.imageSize]
    omega
  | tef => rfl

/-- `obj` is the OBJ of `s` with the image of the object in the frame registers and DATA of `s` stored. -/
structure StoredImage (kind : ObjKind) (pls : Fin 8) (s : State) (obj : Memory) : Prop where
  idWord : (obj.readWord 0).toNat = idWordNat s.layout s.frame
  flagsWord : (obj.readWord 4).toNat = flagsWordNat s.layout kind s.frame
  timestamp : kind ≠ .tx → obj.readWord 8 = s.frame.ts
  payload : kind ≠ .tef → ∀ a, a < plsLen pls →
    obj.read (headerSize kind + a) = paddedByte s.data s.frame.len.toNat a
  rest : ∀ a, kind.imageSize pls ≤ a → obj.read a = s.obj.read a

/-- An encoder that finds no error completes, with its image in OBJ and the image's size in OBJLEN. -/
theorem exec_encoder_storedImage {kind : ObjKind} {pls : Fin 8} {s : State} (hcode : encodeErrorCode kind pls s = 0)
    (hlay : s.layout.NonOverlapping) :
    ∃ obj, exec (kind.encoder pls) s =
        .next (State.endedOk { s with obj := obj, objlen := BitVec.ofNat 32 (kind.imageSize pls) }) ∧
      StoredImage kind pls s obj := by
  obtain ⟨w0, w1, henc, hw0, hw1⟩ := encHeader_words hcode hlay
  refine ⟨_, exec_of_effect_ok (effect_encoder hcode henc), ?_⟩
  exact
    { idWord := by rw [readWord_idWord, hw0]
      flagsWord := by rw [readWord_flagsWord, hw1]
      timestamp := fun hk => readWord_timestamp hk s.obj pls s w0 w1
      payload := fun hk a ha => read_payload hk s.obj w0 w1 (len_le_plsLen hcode hk) ha
      rest := fun a ha => s.obj.read_writeBytes_outside (by rw [image_length hcode]; omega) }

/-- The data bytes of a stored image and its pad, in terms of F.LEN. -/
theorem StoredImage.data_and_pad {kind : ObjKind} {pls : Fin 8} {s : State} {obj : Memory}
    (h : StoredImage kind pls s obj) (hcode : encodeErrorCode kind pls s = 0) (hk : kind ≠ .tef) :
    (∀ a, a < s.frame.len.toNat → obj.read (headerSize kind + a) = s.data.read a) ∧
      (∀ a, s.frame.len.toNat ≤ a → a < plsLen pls →
        obj.read (headerSize kind + a) = if s.frame.len = 0 then 0 else s.data.read (s.frame.len.toNat - 1)) := by
  refine ⟨fun a ha => ?_, fun a ha hp => ?_⟩
  · rw [h.payload hk a (ha.trans_le (len_le_plsLen hcode hk)), paddedByte_len, if_pos ha]
  · rw [h.payload hk a hp, paddedByte_len, if_neg (Nat.not_lt.mpr ha)]

/-- Settles O25: the stored image of a TX object. -/
theorem enctxBuildsImage : Obligations.EnctxBuildsImage := by
  intro pls s hcode hlay
  obtain ⟨obj, hexec, himage⟩ := exec_encoder_storedImage hcode hlay
  obtain ⟨hdata, hpad⟩ := himage.data_and_pad hcode nofun
  exact ⟨obj, hexec, himage.idWord, himage.flagsWord, hdata, hpad, himage.rest⟩

/-- Settles O26: the stored image of an RX object, which has a timestamp. -/
theorem encrxBuildsImage : Obligations.EncrxBuildsImage := by
  intro pls s hcode hlay
  obtain ⟨obj, hexec, himage⟩ := exec_encoder_storedImage hcode hlay
  obtain ⟨hdata, hpad⟩ := himage.data_and_pad hcode nofun
  exact ⟨obj, hexec, himage.idWord, himage.flagsWord, himage.timestamp nofun, hdata, hpad, himage.rest⟩

/-- Settles O27: the stored image of a TEF object, which has a timestamp and no payload. -/
theorem enctefBuildsImage : Obligations.EnctefBuildsImage := by
  intro s hcode hlay
  obtain ⟨obj, hexec, himage⟩ := exec_encoder_storedImage hcode hlay
  exact ⟨obj, hexec, himage.idWord, himage.flagsWord, himage.timestamp nofun, himage.rest⟩

/-! ### What an encoder leaves unchanged -/

theorem imageSize_of_encoder_eq {kind kind' : ObjKind} {pls pls' : Fin 8} (h : kind.encoder pls = kind'.encoder pls') :
    kind.imageSize pls = kind'.imageSize pls' := by
  cases kind <;> cases kind' <;> cases h <;> rfl

/-- A successful encoder stores bytes at the offsets of its image. -/
theorem EffectOf.storeImage {kind : ObjKind} {pls : Fin 8} {s t : State} (h : EffectOf s (kind.encoder pls) t) :
    ∃ image, image.length = kind.imageSize pls ∧ t = s.storeImage image (kind.imageSize pls) := by
  generalize hi : kind.encoder pls = i at h
  cases h with
  | nop => cases kind <;> cases hi
  | register hrd v => rw [← hi, destination_encoder] at hrd; cases hrd
  | encoder kind' pls' hsize =>
    rw [← imageSize_of_encoder_eq hi] at hsize ⊢
    exact ⟨_, hsize, rfl⟩
  | decoder kind' _ _ => cases kind <;> cases kind' <;> cases hi

/-- Settles O37: on success the state is that of `EffectOf.storeImage`, and an error writes STATUS alone. -/
theorem encoderFrame : Obligations.EncoderFrame := by
  intro kind pls s t h
  have hstatus := exec_status_frame h
  obtain ⟨u, hu, rfl⟩ | ⟨e, -, rfl⟩ := exec_next_iff.mp h
  · obtain ⟨image, hsize, rfl⟩ := (effectOf_of_ok hu).storeImage
    have hobj (a : Nat) (ha : kind.imageSize pls ≤ a) : (s.obj.writeBytes 0 image).read a = s.obj.read a :=
      s.obj.read_writeBytes_outside (by omega)
    exact ⟨fun _ => rfl, rfl, rfl, fun _ => rfl, fun _ => rfl, hobj, rfl, rfl, rfl, hstatus⟩
  · exact ⟨fun _ => rfl, rfl, rfl, fun _ => rfl, fun _ => rfl, fun _ _ => rfl, rfl, rfl, rfl, hstatus⟩

end Sys2Proof.Machine
end

section
/-! Proofs: what DECTX, DECRX and DECTEF do, once for the three kinds: `State.decodeAs` is the state a long enough image
gives, and `exec_decoder_cases` the two ways a decoder ends (43_object_codec.md R112 to R115). -/

namespace Sys2Proof.Machine

/-! ### The two ways the header parse ends -/

/-- The header in OBJ (43_object_codec.md R112). -/
def State.header (s : State) : Header :=
  let w1 := s.obj.readWord 4
  let dlc := extractField w1 s.layout.dlc 4
  { w0 := s.obj.readWord 0, w1 := w1, dlc := dlc, len := dlcLen dlc.toNat, ide := extractField w1 s.layout.ide 1 }

theorem dlcField_toNat (s : State) :
    (extractField (s.obj.readWord 4) s.layout.dlc 4).toNat = (s.obj.readWord 4).toNat / 2 ^ s.layout.dlc % 16 :=
  extractField_toNat _ _ (by decide)

theorem State.header_len (s : State) :
    s.header.len = dlcLen ((s.obj.readWord 4).toNat / 2 ^ s.layout.dlc % 16) :=
  congrArg dlcLen (dlcField_toNat s)

theorem headerSize_eq (kind : ObjKind) : headerSize kind = kind.headerBytes := by
  cases kind <;> rfl

/-- A decoder that finds no error parses the header in OBJ. -/
theorem decHeader_eq_header {kind : ObjKind} {s : State} (hcode : decodeErrorCode kind s = 0) :
    decHeader s.layout kind s.objlen s.obj = .ok s.header := by
  obtain ⟨_, hok, -⟩ := decHeader_of_code_zero hcode
  obtain ⟨hrange, hheader, hpayload, -, hw1, hdlc, hlen, -⟩ := decHeader_ok_iff.mp hok
  rw [hlen, hdlc, hw1] at hpayload
  exact decHeader_ok_iff.mpr ⟨hrange, hheader, hpayload, rfl, rfl, rfl, rfl, rfl⟩

/-- The first failed check of the header parse, in the order of 60_exceptions.md R134. -/
theorem decHeader_error {kind : ObjKind} {s : State} (hcode : decodeErrorCode kind s ≠ 0) :
    ∃ e, decHeader s.layout kind s.objlen s.obj = .error e ∧ e.code.toNat = decodeErrorCode kind s := by
  unfold decodeErrorCode at hcode ⊢
  unfold decHeader
  rw [headerSize_eq]
  by_cases hrange : 76 < s.objlen.toNat
  · rw [require_false _ (Nat.not_le.mpr hrange), if_pos hrange]
    exact ⟨_, rfl, rfl⟩
  rw [require_true _ (Nat.not_lt.mp hrange), ok_bind, if_neg hrange]
  by_cases hheader : s.objlen.toNat < kind.headerBytes
  · rw [require_false _ (Nat.not_le.mpr hheader), if_pos hheader]
    exact ⟨_, rfl, rfl⟩
  rw [require_true _ (Nat.not_lt.mp hheader), ok_bind, if_neg hheader]
  simp only [dlcField_toNat]
  by_cases hpayload :
      kind ≠ .tef ∧ s.objlen.toNat < kind.headerBytes + dlcLen ((s.obj.readWord 4).toNat / 2 ^ s.layout.dlc % 16)
  · rw [require_false _ (by simpa [not_or] using hpayload), if_pos hpayload]
    exact ⟨_, rfl, rfl⟩
  · rw [if_neg hrange, if_neg hheader, if_neg hpayload] at hcode
    exact absurd rfl hcode

/-- The bounds that the checks of a decoder that finds no error establish. -/
theorem objlen_bounds_of_code_zero {kind : ObjKind} {s : State} (hcode : decodeErrorCode kind s = 0) :
    headerSize kind ≤ s.objlen.toNat ∧ (kind = .tef ∨ headerSize kind + s.header.len ≤ s.objlen.toNat) := by
  obtain ⟨-, hheader, hpayload, -⟩ := decHeader_ok_iff.mp (decHeader_eq_header hcode)
  exact ⟨hheader, hpayload⟩

/-! ### The state after a decode -/

/-- The payload bytes that a decoder copies to DATA. -/
def State.payloadLen (s : State) (kind : ObjKind) : Nat := if kind = .tef then 0 else s.header.len

theorem State.payloadLen_le (s : State) (kind : ObjKind) : s.payloadLen kind ≤ s.header.len := by
  unfold State.payloadLen
  split
  · exact Nat.zero_le _
  · exact le_rfl

/-- `s` with the object in OBJ decoded as an object of this kind. -/
def State.decodeAs (s : State) (kind : ObjKind) : State :=
  { s.loadPayload kind (s.payloadLen kind) with
    frame := { s.frame.withHeader s.layout s.header with
      seq := if kind = .rx then s.frame.seq else extractField (s.obj.readWord 4) s.layout.seq (seqBits s.cfg)
      filhit := if kind = .rx then extractField (s.obj.readWord 4) s.layout.filhit 5 else s.frame.filhit
      ts := if kind = .tx then s.frame.ts else s.obj.readWord 8
      len := if kind = .tef then s.frame.len else BitVec.ofNat 32 s.header.len } }

/-- The three decoders as one: each arm of the model is `decodeAs` at its kind. -/
theorem effect_decoder {kind : ObjKind} {s : State} (hcode : decodeErrorCode kind s = 0) :
    effect kind.decoder s = .ok (s.decodeAs kind) := by
  have hheader := decHeader_eq_header hcode
  cases kind with
  | tx => exact decTx_ok_iff.mpr ⟨_, hheader, rfl⟩
  | rx => exact decRx_ok_iff.mpr ⟨_, hheader, rfl⟩
  | tef => exact decTef_ok_iff.mpr ⟨_, hheader, rfl⟩

theorem effect_decoder_error {kind : ObjKind} {s : State} {e : Err}
    (h : decHeader s.layout kind s.objlen s.obj = .error e) : effect kind.decoder s = .error e := by
  cases kind with
  | tx => simp only [ObjKind.decoder, effect, decTx, h, error_bind]
  | rx => simp only [ObjKind.decoder, effect, decRx, h, error_bind]
  | tef => simp only [ObjKind.decoder, effect, decTef, h, error_bind]

theorem exec_decoder_of_code_zero {kind : ObjKind} {s : State} (hcode : decodeErrorCode kind s = 0) :
    exec kind.decoder s = .next (s.decodeAs kind).endedOk :=
  exec_of_effect_ok (effect_decoder hcode)

theorem exec_decoder_of_code_ne_zero {kind : ObjKind} {s : State} (hcode : decodeErrorCode kind s ≠ 0) :
    exec kind.decoder s = .next (s.endedWith (decodeErrorCode kind s)) := by
  obtain ⟨e, he, hnat⟩ := decHeader_error hcode
  rw [exec_of_effect_error (effect_decoder_error he), hnat]

/-- Everything a decoder can do: decode a long enough image, or report its first error. -/
theorem exec_decoder_cases {kind : ObjKind} {s t : State} (h : exec kind.decoder s = .next t) :
    (decodeErrorCode kind s = 0 ∧ t = (s.decodeAs kind).endedOk) ∨
      (decodeErrorCode kind s ≠ 0 ∧ t = s.endedWith (decodeErrorCode kind s)) := by
  by_cases hcode : decodeErrorCode kind s = 0
  · rw [exec_decoder_of_code_zero hcode] at h
    cases h
    exact Or.inl ⟨hcode, rfl⟩
  · rw [exec_decoder_of_code_ne_zero hcode] at h
    cases h
    exact Or.inr ⟨hcode, rfl⟩

/-! ### Its DATA and its frame registers -/

theorem State.read_decodeAs (s : State) (kind : ObjKind) (a : Nat) :
    (s.decodeAs kind).data.read a =
      if a < s.payloadLen kind then s.obj.read (headerSize kind + a) else s.data.read a :=
  s.read_loadPayload kind _ a

/-- Below the payload length DATA holds the object's payload, from there on its old bytes. -/
theorem State.read_decodeAs_payload (s : State) {kind : ObjKind} (hk : kind ≠ .tef) {len : Nat}
    (hlen : len = dlcLen ((s.obj.readWord 4).toNat / 2 ^ s.layout.dlc % 16)) :
    (∀ a, a < len → (s.decodeAs kind).data.read a = s.obj.read (headerSize kind + a)) ∧
      (∀ a, len ≤ a → (s.decodeAs kind).data.read a = s.data.read a) := by
  have hpayload : s.payloadLen kind = len := by rw [State.payloadLen, if_neg hk, hlen, s.header_len]
  refine ⟨fun a ha => ?_, fun a ha => ?_⟩
  · rw [s.read_decodeAs, hpayload, if_pos ha]
  · rw [s.read_decodeAs, hpayload, if_neg (Nat.not_lt.mpr ha)]

theorem ofNat_field (w : Word) (start : Nat) {n : Nat} (hn : n ≤ 32) :
    BitVec.ofNat 32 (w.toNat / 2 ^ start % 2 ^ n) = extractField w start n := by
  rw [← extractField_toNat w start hn, BitVec.ofNat_toNat, BitVec.setWidth_eq]

theorem ofNat_idOfWordNat (lay : ObjLayout) (w ide : Word) :
    BitVec.ofNat 32 (idOfWordNat lay w.toNat ide.toNat) = idDecode lay w (idKindOf ide) := by
  rw [← idDecode_toNat, BitVec.ofNat_toNat, BitVec.setWidth_eq]

theorem seqBits_eq_seqTagWidth (cfg : Word) : seqBits cfg = seqTagWidth cfg := seqBits_eq cfg

theorem ofNat_seqField (s : State) {w1 : Nat} (hw1 : w1 = (s.obj.readWord 4).toNat) :
    BitVec.ofNat 32 (w1 / 2 ^ s.layout.seq % 2 ^ seqTagWidth s.cfg) =
      extractField (s.obj.readWord 4) s.layout.seq (seqBits s.cfg) := by
  rw [hw1, ← seqBits_eq_seqTagWidth, ofNat_field _ _ ((seqBits_le s.cfg).trans (by decide))]

/-- The registers that every decoder writes, with each field as the statements write it: a quotient and a remainder of
the header word. -/
theorem Frame.withHeader_header (f : Frame) (s : State) {w0 w1 : Nat} (hw0 : w0 = (s.obj.readWord 0).toNat)
    (hw1 : w1 = (s.obj.readWord 4).toNat) :
    f.withHeader s.layout s.header = { f with
      id := BitVec.ofNat 32 (idOfWordNat s.layout w0 (w1 / 2 ^ s.layout.ide % 2))
      ide := BitVec.ofNat 32 (w1 / 2 ^ s.layout.ide % 2)
      rtr := BitVec.ofNat 32 (w1 / 2 ^ s.layout.rtr % 2)
      brs := BitVec.ofNat 32 (w1 / 2 ^ s.layout.brs % 2)
      fdf := BitVec.ofNat 32 (w1 / 2 ^ s.layout.fdf % 2)
      esi := BitVec.ofNat 32 (w1 / 2 ^ s.layout.esi % 2)
      dlc := BitVec.ofNat 32 (w1 / 2 ^ s.layout.dlc % 16) } := by
  have hbit (start : Nat) := ofNat_field (s.obj.readWord 4) start (show 1 ≤ 32 by decide)
  have hdlc := ofNat_field (s.obj.readWord 4) s.layout.dlc (show 4 ≤ 32 by decide)
  have hide : (extractField (s.obj.readWord 4) s.layout.ide 1).toNat = w1 / 2 ^ s.layout.ide % 2 := by
    rw [hw1]
    exact extractField_toNat _ _ (by decide)
  have hid := ofNat_idOfWordNat s.layout (s.obj.readWord 0) (extractField (s.obj.readWord 4) s.layout.ide 1)
  rw [hide, ← hw0] at hid
  subst hw1
  rw [hid]
  simp only [Nat.reducePow] at hbit hdlc
  simp only [hbit, hdlc]
  rfl

/-- Settles O28: the state of a long enough TX image. -/
theorem dectxReadsObject : Obligations.DectxReadsObject := by
  intro s w0 w1 len hcode hw0 hw1 hlen
  refine ⟨(s.decodeAs .tx).data, (exec_decoder_of_code_zero (kind := .tx) hcode).trans ?_,
    s.read_decodeAs_payload (kind := .tx) nofun (hw1 ▸ hlen)⟩
  have hlen : len = s.header.len := by rw [hlen, hw1, s.header_len]
  rw [State.decodeAs, s.frame.withHeader_header s hw0 hw1, ofNat_seqField s hw1, hlen]
  exact rfl

/-- Settles O29: the state of a long enough RX image. -/
theorem decrxReadsObject : Obligations.DecrxReadsObject := by
  intro s w0 w1 len hcode hw0 hw1 hlen
  refine ⟨(s.decodeAs .rx).data, (exec_decoder_of_code_zero (kind := .rx) hcode).trans ?_,
    s.read_decodeAs_payload (kind := .rx) nofun (hw1 ▸ hlen)⟩
  have hlen : len = s.header.len := by rw [hlen, hw1, s.header_len]
  have hfilhit : BitVec.ofNat 32 (w1 / 2 ^ s.layout.filhit % 2 ^ 5) = _ := hw1 ▸ ofNat_field _ _ (by decide)
  rw [State.decodeAs, s.frame.withHeader_header s hw0 hw1, hfilhit, hlen]
  exact rfl

/-- Settles O30: the state of a long enough TEF image, whose decode loads no payload. -/
theorem dectefReadsObject : Obligations.DectefReadsObject := by
  intro s w0 w1 hcode hw0 hw1
  refine (exec_decoder_of_code_zero (kind := .tef) hcode).trans ?_
  rw [State.decodeAs, s.frame.withHeader_header s hw0 hw1, ofNat_seqField s hw1]
  exact rfl

/-! ### What a decoder leaves unchanged -/

theorem State.decodeAs_get (s : State) {kind : ObjKind} {f : FrameReg} (hf : kind.carries f = false) :
    (s.decodeAs kind).frame.get f = s.frame.get f := by
  cases f with
  | seq =>
    have hk : kind = .rx := by simpa [ObjKind.carries] using hf
    exact if_pos hk
  | filhit =>
    have hk : kind ≠ .rx := by simpa [ObjKind.carries] using hf
    exact if_neg hk
  | ts =>
    have hk : kind = .tx := by simpa [ObjKind.carries] using hf
    exact if_pos hk
  | len =>
    have hk : kind = .tef := by simpa [ObjKind.carries] using hf
    exact if_pos hk
  | id | ide | rtr | brs | fdf | esi | dlc => cases kind <;> cases hf

/-- Settles O38: a decode writes the registers its kind carries and the payload's bytes, an error STATUS alone. -/
theorem decoderFrame : Obligations.DecoderFrame := by
  intro kind s t h
  have hstatus := exec_status_frame h
  obtain ⟨-, rfl⟩ | ⟨-, rfl⟩ := exec_decoder_cases h
  · refine ⟨fun _ => rfl, rfl, rfl, rfl, fun f hf => s.decodeAs_get hf, fun _ => rfl, fun a ha => ?_, rfl, rfl, rfl,
      hstatus⟩
    refine (s.read_decodeAs kind a).trans (if_neg (Nat.not_lt.mpr ?_))
    obtain rfl | hlen := ha
    · exact Nat.zero_le a
    · exact (s.payloadLen_le kind).trans (s.header_len.trans_le hlen)
  · exact ⟨fun _ => rfl, rfl, rfl, rfl, fun _ _ => rfl, fun _ => rfl, fun _ _ => rfl, rfl, rfl, rfl, hstatus⟩

end Sys2Proof.Machine
end

section
/-! Proofs: encode and then decode, in another state or with another sequence width (43_object_codec.md R116, R119). -/

namespace Sys2Proof.Machine

/-- Another state with the same OBJ bytes, OBJLEN, CFG and layout has the image too. -/
theorem HoldsImage.of_same_image {kind : ObjKind} {s t t' : State} (h : HoldsImage kind s t)
    (hobj : ∀ a, t'.obj.read a = t.obj.read a) (hobjlen : t'.objlen = t.objlen) (hcfg : t'.cfg = t.cfg)
    (hlay : t'.layout = t.layout) : HoldsImage kind s t' := by
  have hword (a : Nat) : t'.obj.readWord a = t.obj.readWord a := Memory.readWord_congr fun b _ _ => hobj b
  exact
    { layout := hlay.trans h.layout
      cfg := hcfg.trans h.cfg
      header := by rw [hword, hword]; exact h.header
      timestamp := fun hk => (hword 8).trans (h.timestamp hk)
      payload := fun hk a ha => (hobj _).trans (h.payload hk a ha)
      objlen_le := hobjlen ▸ h.objlen_le
      le_objlen := hobjlen ▸ h.le_objlen
      payload_fits := hobjlen ▸ h.payload_fits }

/-- Settles O45: the other state has the image too, and its decode gives `decodedFrame` and `decodedByte`. -/
theorem objectRoundTrip : Obligations.ObjectRoundTrip := by
  intro kind pls s hcode hlay
  obtain ⟨t, ht, himage, -, -, -⟩ := exec_encoder_holdsImage hlay hcode
  refine ⟨t, ht, fun t' hobj hobjlen hcfg hlay' => ?_⟩
  obtain ⟨u, hu, hframe, hdata, hstatus⟩ := (himage.of_same_image hobj hobjlen hcfg hlay').exec_decoder
  refine ⟨u, hu, ?_, fun f hf hlen => ?_, fun hk => ⟨?_, fun a ha => ?_⟩⟩
  · rw [hstatus, errOf_statusDone]
  · rw [hframe, decodedFrame_get _ _ hf hlen]
  · rw [hframe, decodedFrame_len _ _ hk]
  · rw [hdata, decodedByte, if_pos ⟨hk, ha⟩, paddedByte_len]

theorem HoldsImage.decodeErrorCode {kind : ObjKind} {s t : State} (h : HoldsImage kind s t) :
    decodeErrorCode kind t = 0 := by
  by_contra hcode
  obtain ⟨e, he, -⟩ := decHeader_error hcode
  rw [h.decHeader] at he
  cases he

/-- The sequence tag that a decoder of a long enough image with a tag reads. -/
theorem exec_decoder_seq {kind : ObjKind} {s : State} (hk : kind ≠ .rx) (hcode : decodeErrorCode kind s = 0) :
    ∃ u, exec kind.decoder s = .next u ∧ errOf u.status = 0 ∧
      u.frame.seq.toNat = (s.obj.readWord 4).toNat / 2 ^ s.layout.seq % 2 ^ seqTagWidth s.cfg := by
  have hseq : (s.decodeAs kind).frame.seq = extractField (s.obj.readWord 4) s.layout.seq (seqBits s.cfg) := if_neg hk
  refine ⟨_, exec_decoder_of_code_zero hcode, (s.decodeAs kind).errOf_endedOk, (congrArg BitVec.toNat hseq).trans ?_⟩
  rw [extractField_toNat _ _ ((seqBits_le s.cfg).trans (by decide)), seqBits_eq_seqTagWidth]

theorem seqTagWidth_of_odd {cfg : Word} (h : cfg.toNat % 2 = 1) : seqTagWidth cfg = 23 := if_neg (by omega)

/-- Settles O47: the 23 bits from the start of SEQ are the tag, and a decoder with SEQW = 0 reads the lower 7. -/
theorem sequenceWidthMixUp : Obligations.SequenceWidthMixUp := by
  refine ⟨fun kind pls s t hk hwide hcode hlay h => ?_, fun kind s hk hwide hcode => ?_⟩
  · obtain ⟨t', ht', himage, -, -, -⟩ := exec_encoder_holdsImage hlay hcode
    obtain rfl : t' = t := Host.Outcome.next.inj (ht'.symm.trans h)
    have hcode' : decodeErrorCode kind { t' with cfg := 0 } = 0 := himage.decodeErrorCode
    obtain ⟨u, hu, herr, hseq⟩ := exec_decoder_seq hk hcode'
    have htag : (t'.obj.readWord 4).toNat / 2 ^ t'.layout.seq % 2 ^ 23 = s.frame.seq.toNat := by
      rw [← seqTagWidth_of_odd hwide, ← seqBits_eq_seqTagWidth, himage.layout,
        ← extractField_toNat _ _ ((seqBits_le s.cfg).trans (by decide)), himage.header.seq hk]
    refine ⟨u, hu, herr, hseq.trans ?_⟩
    calc (t'.obj.readWord 4).toNat / 2 ^ t'.layout.seq % 2 ^ 7
        = (t'.obj.readWord 4).toNat / 2 ^ t'.layout.seq % 2 ^ 23 % 2 ^ 7 := by omega
      _ = s.frame.seq.toNat % 2 ^ 7 := by rw [htag]
  · have h := exec_decoder_seq hk hcode
    rwa [seqTagWidth_of_odd hwide] at h

end Sys2Proof.Machine
end

section
/-! Proofs: what a decoder reads of OBJ, which is its fields of the header words and the bytes below OBJLEN; and the
reserved bits, which an encoder leaves 0 (43_object_codec.md R112, R118). -/

namespace Sys2Proof.Machine

/-! ### Two buffers with the same object -/

/-- The fields of the flags word of an object kind (43_object_codec.md R102, R103, R105). -/
def flagsFields (lay : ObjLayout) (kind : ObjKind) (cfg : Word) : ObjLayout.Fields :=
  lay.commonFields ++ [if kind = .rx then (lay.filhit, 5) else (lay.seq, seqBits cfg)]

/-- `obj'` and the OBJ of `s` agree on all that a decoder of this kind reads. -/
structure SameObject (kind : ObjKind) (s : State) (obj' : Memory) : Prop where
  sid : extractField (obj'.readWord 0) s.layout.sid 11 = extractField (s.obj.readWord 0) s.layout.sid 11
  eid : extractField (obj'.readWord 0) s.layout.eid 18 = extractField (s.obj.readWord 0) s.layout.eid 18
  flags : ∀ f ∈ flagsFields s.layout kind s.cfg,
    extractField (obj'.readWord 4) f.1 f.2 = extractField (s.obj.readWord 4) f.1 f.2
  body : ∀ a, 8 ≤ a → a < headerSize kind + s.payloadLen kind → obj'.read a = s.obj.read a

/-- The same object in another buffer is decoded to the same registers and DATA. -/
theorem SameObject.decodeAs {kind : ObjKind} {s : State} {obj' : Memory} (h : SameObject kind s obj') :
    State.decodeAs { s with obj := obj' } kind = { s.decodeAs kind with obj := obj' } := by
  obtain ⟨hsid, heid, hflags, hbody⟩ := h
  simp only [flagsFields, ObjLayout.commonFields, List.cons_append, List.nil_append, List.forall_mem_cons,
    List.not_mem_nil, false_imp_iff, implies_true, and_true] at hflags
  obtain ⟨hdlc, hide, hrtr, hbrs, hfdf, hesi, htag⟩ := hflags
  have hid (x : IdKind) : idDecode s.layout (obj'.readWord 0) x = idDecode s.layout (s.obj.readWord 0) x := by
    cases x <;> simp only [idDecode, slice_sid, slice_eid, hsid, heid]
  have hts (hk : kind ≠ .tx) : obj'.readWord 8 = s.obj.readWord 8 := by
    have hsize : headerSize kind = 12 := by
      cases kind with
      | tx => exact absurd rfl hk
      | rx | tef => rfl
    exact Memory.readWord_congr fun b hb hlt => hbody b hb (by omega)
  have hpayload : obj'.readBytes (headerSize kind) (s.payloadLen kind) =
      s.obj.readBytes (headerSize kind) (s.payloadLen kind) := by
    have hsize : 8 ≤ headerSize kind := by cases kind <;> decide
    exact Memory.readBytes_congr fun b hb hlt => hbody b (hsize.trans hb) hlt
  have hlen : State.payloadLen { s with obj := obj' } kind = s.payloadLen kind := by
    simp only [State.payloadLen, State.header, hdlc]
  simp only [State.decodeAs, State.loadPayload, hlen, hpayload]
  simp only [Frame.withHeader, State.header, hid, hdlc, hide, hrtr, hbrs, hfdf, hesi]
  cases kind with
  | tx =>
    have hseq : extractField (obj'.readWord 4) s.layout.seq (seqBits s.cfg) = _ := htag
    simp only [hseq, reduceCtorEq, if_false, if_true]
  | rx =>
    have hfilhit : extractField (obj'.readWord 4) s.layout.filhit 5 = _ := htag
    simp only [hfilhit, hts nofun, reduceCtorEq, if_false, if_true]
  | tef =>
    have hseq : extractField (obj'.readWord 4) s.layout.seq (seqBits s.cfg) = _ := htag
    simp only [hseq, hts nofun, reduceCtorEq, if_false, if_true]

/-- A decoder ends alike from two buffers that have the same object, or the same error. -/
theorem exec_decoder_withObj {kind : ObjKind} {s t : State} {obj' : Memory}
    (hcode : decodeErrorCode kind { s with obj := obj' } = decodeErrorCode kind s)
    (hsame : decodeErrorCode kind s = 0 → SameObject kind s obj') (h : exec kind.decoder s = .next t) :
    exec kind.decoder { s with obj := obj' } = .next { t with obj := obj' } := by
  obtain ⟨hzero, rfl⟩ | ⟨hne, rfl⟩ := exec_decoder_cases h
  · rw [exec_decoder_of_code_zero (hcode.trans hzero), (hsame hzero).decodeAs]
    rfl
  · rw [exec_decoder_of_code_ne_zero (hcode.trans_ne hne), hcode]
    rfl

/-! ### OBJ from OBJLEN on -/

theorem headerBytes_ge (kind : ObjKind) : 8 ≤ kind.headerBytes := by
  cases kind <;> decide

/-- A header that lies below OBJLEN has its two words there. -/
theorem headerWords_congr {kind : ObjKind} {s : State} {obj' : Memory}
    (hread : ∀ a, a < s.objlen.toNat → obj'.read a = s.obj.read a) (h : kind.headerBytes ≤ s.objlen.toNat) :
    obj'.readWord 0 = s.obj.readWord 0 ∧ obj'.readWord 4 = s.obj.readWord 4 := by
  have hsize := (headerBytes_ge kind).trans h
  exact ⟨Memory.readWord_congr fun b _ hb => hread b (by omega), Memory.readWord_congr fun b _ hb => hread b (by omega)⟩

/-- Settles O49: the checks come first, and after them every byte read lies below OBJLEN. -/
theorem decoderReadsOnlyBelowObjlen : Obligations.DecoderReadsOnlyBelowObjlen := by
  intro kind s obj' hread t h
  refine exec_decoder_withObj ?_ (fun hcode => ?_) h
  · by_cases hheader : s.objlen.toNat < kind.headerBytes
    · simp only [decodeErrorCode, if_pos hheader]
    · simp only [decodeErrorCode, headerWords_congr hread (Nat.not_lt.mp hheader)]
  · obtain ⟨hheader, hpayload⟩ := objlen_bounds_of_code_zero hcode
    obtain ⟨hw0, hw1⟩ := headerWords_congr hread (headerSize_eq kind ▸ hheader)
    have hend : headerSize kind + s.payloadLen kind ≤ s.objlen.toNat := by
      unfold State.payloadLen
      split
      · exact hheader
      · next hk => exact hpayload.resolve_left hk
    exact
      { sid := by rw [hw0]
        eid := by rw [hw0]
        flags := fun f _ => by rw [hw1]
        body := fun a _ ha => hread a (by omega) }

/-! ### The reserved bits of the header words -/

/-- Two words that agree under a field's mask have the same field. -/
theorem extractField_eq_of_and_fieldMask {w w' : Word} {start n : Nat} (hn : n ≤ 32)
    (h : w' &&& fieldMask start n = w &&& fieldMask start n) : extractField w' start n = extractField w start n := by
  apply BitVec.eq_of_getLsbD_eq
  intro i _
  have hbit := congrArg (·.getLsbD (start + i)) h
  simp only [BitVec.getLsbD_and, fieldMask_getLsbD _ _ _ hn] at hbit
  rw [extractField_getLsbD _ _ _ hn, extractField_getLsbD _ _ _ hn]
  by_cases hin : start + i < 32
  · by_cases hi : i < n
    · simpa [hin, hi] using hbit
    · simp only [hi, decide_false, Bool.false_and]
  · rw [BitVec.getLsbD_of_ge w' _ (Nat.not_lt.mp hin), BitVec.getLsbD_of_ge w _ (Nat.not_lt.mp hin)]

theorem or_and_cancel (m k : Word) : (m ||| k) &&& m = m :=
  BitVec.eq_of_getLsbD_eq fun i _ => by simp +contextual

/-- Two words that agree under two masks together agree under each. -/
theorem and_eq_and_of_or {w w' m k : Word} (h : w' &&& (m ||| k) = w &&& (m ||| k)) :
    w' &&& m = w &&& m ∧ w' &&& k = w &&& k := by
  have hm := congrArg (· &&& m) h
  have hk := congrArg (· &&& k) h
  simp only [BitVec.and_assoc, or_and_cancel] at hm
  simp only [BitVec.and_assoc, BitVec.or_comm m, or_and_cancel] at hk
  exact ⟨hm, hk⟩

/-- Buffers that agree but for the reserved bits of the header words have the same object. -/
theorem sameObject_of_masks {kind : ObjKind} {s : State} {obj' : Memory}
    (hw0 : obj'.readWord 0 &&& headerMask0 s.layout = s.obj.readWord 0 &&& headerMask0 s.layout)
    (hw1 : obj'.readWord 4 &&& headerMask1 s.layout kind s.cfg = s.obj.readWord 4 &&& headerMask1 s.layout kind s.cfg)
    (hbody : ∀ a, 8 ≤ a → obj'.read a = s.obj.read a) : SameObject kind s obj' := by
  obtain ⟨hsid, heid⟩ := and_eq_and_of_or hw0
  obtain ⟨hw1, htag⟩ := and_eq_and_of_or hw1
  obtain ⟨hw1, hesi⟩ := and_eq_and_of_or hw1
  obtain ⟨hw1, hfdf⟩ := and_eq_and_of_or hw1
  obtain ⟨hw1, hbrs⟩ := and_eq_and_of_or hw1
  obtain ⟨hw1, hrtr⟩ := and_eq_and_of_or hw1
  obtain ⟨hdlc, hide⟩ := and_eq_and_of_or hw1
  have field {w w' : Word} {start n : Nat} (hn : n ≤ 32) :=
    extractField_eq_of_and_fieldMask (w := w) (w' := w') (start := start) hn
  refine ⟨field (by decide) hsid, field (by decide) heid, ?_, fun a ha _ => hbody a ha⟩
  simp only [flagsFields, ObjLayout.commonFields, List.cons_append, List.nil_append, List.forall_mem_cons,
    List.not_mem_nil, false_imp_iff, implies_true, and_true]
  refine ⟨field (by decide) hdlc, field (by decide) hide, field (by decide) hrtr, field (by decide) hbrs,
    field (by decide) hfdf, field (by decide) hesi, ?_⟩
  by_cases hk : kind = .rx
  · simp only [if_pos hk] at htag ⊢
    exact field (by decide) htag
  · simp only [if_neg hk, ← seqBits_eq_seqTagWidth] at htag ⊢
    exact field ((seqBits_le s.cfg).trans (by decide)) htag

/-- A value that fits its field, shifted into it, has no bit outside the field's mask. -/
theorem shiftLeft_and_not_fieldMask {v : Word} {start n : Nat} (hn : n ≤ 32) (hv : v.toNat < 2 ^ n) :
    (v <<< start) &&& ~~~ fieldMask start n = 0 := by
  apply BitVec.eq_of_getLsbD_eq
  intro i hi
  rw [BitVec.getLsbD_and, BitVec.getLsbD_not, fieldMask_getLsbD _ _ _ hn]
  by_cases hin : start ≤ i ∧ i < start + n
  · simp [hi, hin]
  · rw [getLsbD_shiftLeft_outside hv (by omega)]
    simp

/-- What lies inside two masks, ORed, lies inside the two together. -/
theorem or_and_not_or {a b m k : Word} (ha : a &&& ~~~ m = 0) (hb : b &&& ~~~ k = 0) :
    (a ||| b) &&& ~~~ (m ||| k) = 0 := by
  rw [← and_eq_self_iff] at ha hb ⊢
  calc (a ||| b) &&& (m ||| k)
      = (a &&& m &&& (m ||| k)) ||| (b &&& k &&& (m ||| k)) := by rw [or_and_fixed, ha, hb]
    _ = a ||| b := by
      rw [BitVec.and_assoc, BitVec.and_assoc, BitVec.and_comm m, BitVec.and_comm k, or_and_cancel, BitVec.or_comm m,
        or_and_cancel, ha, hb]

theorem idEncode_lt {lay : ObjLayout} {id w : Word} {x : IdKind} (h : idEncode lay id x = .ok w) :
    id.toNat < 2 ^ idWidth x := by
  by_contra hid
  rw [idEncode_fieldRange (Nat.not_lt.mp hid)] at h
  cases h

/-- The identifier word has bits in SID and EID only (42_identifier.md R91). -/
theorem idEncode_and_not_headerMask0 {lay : ObjLayout} {id w : Word} {x : IdKind} (h : idEncode lay id x = .ok w) :
    w &&& ~~~ headerMask0 lay = 0 := by
  have hid := idEncode_lt h
  cases x with
  | standard =>
    rw [idEncode_standard hid] at h
    cases h
    have hsid := shiftLeft_and_not_fieldMask (start := lay.sid) (show 11 ≤ 32 by decide) hid
    have heid : (0 : Word) &&& ~~~ fieldMask lay.eid 18 = 0 := BitVec.zero_and
    rw [← BitVec.or_zero (x := id <<< lay.sid)]
    exact or_and_not_or hsid heid
  | extended =>
    rw [idEncode_extended hid] at h
    cases h
    exact or_and_not_or (shiftLeft_and_not_fieldMask (by decide) (extractField_lt _ _ (by decide)))
      (shiftLeft_and_not_fieldMask (by decide) (extractField_lt _ _ (by decide)))

/-- The flags word has bits in its kind's fields only (43_object_codec.md R102, R103). -/
theorem flagsWord_and_not_headerMask1 {lay : ObjLayout} {kind : ObjKind} {cfg : Word} {f : Frame}
    (h : FlagsFit f (tagOf lay cfg f kind).1 (tagOf lay cfg f kind).2.2) :
    (commonFlags lay f ||| (tagOf lay cfg f kind).1 <<< (tagOf lay cfg f kind).2.1) &&&
      ~~~ headerMask1 lay kind cfg = 0 := by
  obtain ⟨hdlc, hide, hrtr, hbrs, hfdf, hesi, htag⟩ := h
  have inside {v : Word} {start n : Nat} (hn : n ≤ 32) (hv : v.toNat < 2 ^ n) :=
    shiftLeft_and_not_fieldMask (start := start) hn hv
  refine or_and_not_or (or_and_not_or (or_and_not_or (or_and_not_or (or_and_not_or (or_and_not_or
    (inside (by decide) hdlc) (inside (by decide) hide)) (inside (by decide) hrtr)) (inside (by decide) hbrs))
    (inside (by decide) hfdf)) (inside (by decide) hesi)) ?_
  by_cases hk : kind = .rx
  · simp only [tagOf, if_pos hk] at htag ⊢
    exact inside (by decide) htag
  · simp only [tagOf, if_neg hk, ← seqBits_eq_seqTagWidth] at htag ⊢
    exact inside ((seqBits_le cfg).trans (by decide)) htag

/-- An encoder's two header words have the reserved bits 0, whatever the layout. -/
theorem encoder_reservedBits_zero {kind : ObjKind} {pls : Fin 8} {s t : State} (hcode : encodeErrorCode kind pls s = 0)
    (h : exec (kind.encoder pls) s = .next t) :
    t.obj.readWord 0 &&& ~~~ headerMask0 s.layout = 0 ∧
      t.obj.readWord 4 &&& ~~~ headerMask1 s.layout kind s.cfg = 0 := by
  obtain ⟨w0, hid, henc, hfit⟩ := encHeader_of_code_zero hcode
  rw [exec_of_effect_ok (effect_encoder hcode henc)] at h
  cases h
  simp only [State.endedOk, State.storeImage_obj, readWord_idWord, readWord_flagsWord]
  exact ⟨idEncode_and_not_headerMask0 hid, flagsWord_and_not_headerMask1 hfit⟩

/-- The reserved bits of the flags word under the default layout (log entry 2). -/
theorem headerMask1_objLayout (cfg : Word) :
    headerMask1 objLayout .rx cfg = 0x0000F9FF ∧
      ∀ kind, kind ≠ .rx → headerMask1 objLayout kind cfg = if cfg.toNat % 2 = 0 then 0x0000FFFF else 0xFFFFFFFF := by
  refine ⟨by simp only [headerMask1, if_true]; decide, fun kind hk => ?_⟩
  simp only [headerMask1, if_neg hk, seqTagWidth]
  split <;> decide

/-- Settles O48: the encoders fill fields only, a decoder reads fields only, and the default's masks are computed. -/
theorem reservedBitsZeroAndIgnored : Obligations.ReservedBitsZeroAndIgnored := by
  refine ⟨fun kind s => ⟨fun pls t => encoder_reservedBits_zero, fun obj' hw0 hw1 hbody t h => ?_⟩, by decide,
    headerMask1_objLayout⟩
  have hsame := sameObject_of_masks hw0 hw1 hbody
  have hdlc : extractField (obj'.readWord 4) s.layout.dlc 4 = extractField (s.obj.readWord 4) s.layout.dlc 4 :=
    hsame.flags (s.layout.dlc, 4) (List.mem_cons_self ..)
  refine exec_decoder_withObj ?_ (fun _ => hsame) h
  simp only [decodeErrorCode, ← dlcField_toNat s, ← dlcField_toNat { s with obj := obj' }, hdlc]

end Sys2Proof.Machine
end

section
/-! Proofs: the two ways a command ends, as STATUS shows them (60_exceptions.md R130, R132). -/

namespace Sys2Proof.Machine

theorem Err.code_ne_zero (e : Err) : e.code ≠ 0 := by
  cases e <;> decide

/-- Settles O33: `done` from the effect's state, whose STATUS is that of the start, or `raise` from the start. -/
theorem commandEndsDoneOrRaise : Obligations.CommandEndsDoneOrRaise := by
  intro i s
  obtain ⟨t, h⟩ := exec_next i s
  refine ⟨t, h, ?_⟩
  obtain ⟨u, hu, rfl⟩ | ⟨e, -, rfl⟩ := exec_next_iff.mp h
  · obtain ⟨-, hstatus, -⟩ := effect_keeps hu
    exact Or.inl ⟨errOf_statusDone _, by rw [State.done_status, statusDone_eq, hstatus]⟩
  · refine Or.inr ⟨e, errOf_statusRaise _ e, e.code_ne_zero, anyErrOf_statusRaise _ e, ?_⟩
    rw [← statusRaise_eq]
    rfl

/-- Settles O34: ERR is 0 after `done`, and `raise` writes STATUS alone. -/
theorem errorIsNeverPartiallyApplied : Obligations.ErrorIsNeverPartiallyApplied := by
  intro i s t h herr
  obtain ⟨u, -, rfl⟩ | ⟨e, -, rfl⟩ := exec_next_iff.mp h
  · exact absurd (errOf_statusDone _) herr
  · rfl

end Sys2Proof.Machine
end

section
/-! Proofs: what a step can do, said once (`AccessOf`), and that a host whose accesses are all admitted never stops the
block (60_exceptions.md R136; 20_memory.md R45). -/

namespace Sys2Proof.Machine

/-- Everything that an admitted host access can do to `s`: the reset input, a read, a store, or a write to CMD, whose
word is stored and then ends in one of the two ways. -/
inductive AccessOf (s : State) : HostAccess → State → Prop
  | reset : AccessOf s .reset s.resetBlock
  | read (loc : Loc) : AccessOf s (.read .w32 (BitVec.ofNat 12 loc.offset)) (s.hostRead loc)
  | store {loc : Loc} (hloc : loc ≠ .cmd) (v : Word) :
      AccessOf s (.write .w32 (BitVec.ofNat 12 loc.offset) v) (s.writeLoc loc v)
  | done {i : Instr} {c : Word} {u : State} (h : effect i (s.writeLoc .cmd c) = .ok u) :
      AccessOf s (.write .w32 0x000 c) u.done
  | raise (c : Word) (e : Err) : AccessOf s (.write .w32 0x000 c) ((s.writeLoc .cmd c).raise e)

theorem accessOf_of_runCommand {c : Word} {s t : State} (h : runCommand c (s.writeLoc .cmd c) = .next t) :
    AccessOf s (.write .w32 0x000 c) t := by
  unfold runCommand at h
  split at h
  · obtain ⟨u, hu, rfl⟩ | ⟨e, -, rfl⟩ := exec_next_iff.mp h
    · exact .done hu
    · exact .raise c e
  · cases h
    exact .raise c .illegalCmd

theorem mappedAt_ok {width : AccessWidth} {offset : BitVec 12} {loc : Loc} (h : mappedAt width offset = .ok loc) :
    width = .w32 ∧ offset = BitVec.ofNat 12 loc.offset := by
  obtain ⟨hwidth, hoffset⟩ := mappedAt_ok_iff.mp h
  exact ⟨hwidth, by rw [← hoffset, BitVec.ofNat_toNat, BitVec.setWidth_eq]⟩

theorem accessOf_of_access {a : HostAccess} {s t : State} (h : access a s = .next t) : AccessOf s a t := by
  cases a with
  | reset =>
    cases h
    exact .reset
  | read width offset =>
    simp only [access] at h
    split at h
    · next loc hmap =>
      obtain ⟨rfl, rfl⟩ := mappedAt_ok hmap
      cases h
      exact .read loc
    · cases h
  | write width offset v =>
    simp only [access] at h
    split at h
    · next loc hmap =>
      obtain ⟨rfl, rfl⟩ := mappedAt_ok hmap
      unfold hostWrite at h
      split at h
      · next hcmd =>
        subst hcmd
        exact accessOf_of_runCommand h
      · next hcmd =>
        cases h
        exact .store hcmd v
    · cases h

/-- The inversion of a step: an idle step answers the same state, another one does what its access does. -/
theorem step_next_cases {s t : State} (h : step s = .next t) :
    t = s ∨ ∃ a rest, s.pending = a :: rest ∧ AccessOf { s with pending := rest } a t := by
  unfold step at h
  split at h
  · cases h
    exact Or.inl rfl
  · next a rest hpending => exact Or.inr ⟨a, rest, hpending, accessOf_of_access h⟩

/-- No access changes the accesses still to come. -/
theorem AccessOf.pending_eq {a : HostAccess} {s t : State} (h : AccessOf s a t) : t.pending = s.pending := by
  cases h with
  | store hloc v => exact (s.writeLoc_port _ v).1
  | done hu =>
    obtain ⟨-, -, -, -, hpending, -⟩ := effect_keeps hu
    exact hpending
  | reset | read _ | raise _ _ => rfl

/-- An admitted access, or none, lets the step go on with the accesses after it. -/
theorem step_next_of_admitted {s : State} (h : ∀ a ∈ s.pending, a.admitted = true) :
    ∃ t, step s = .next t ∧ t.pending = s.pending.tail := by
  cases hpending : s.pending with
  | nil => exact ⟨s, by simp only [step, hpending], hpending⟩
  | cons a rest =>
    obtain ⟨t, ht⟩ := access_next_of_admitted (h a (by simp [hpending])) { s with pending := rest }
    exact ⟨t, by simp only [step, hpending, ht], (accessOf_of_access ht).pending_eq⟩

/-- A run goes on from the state that its first step answers. -/
theorem run_succ_of_step {s t : State} (h : step s = .next t) (n : Nat) : core.run (n + 1) s = core.run n t := by
  have hstep : core.step s = .next t := h
  simp only [Host.Core.run, hstep]

/-- Settles O54, by induction on the length of the run: each step leaves admitted accesses only. -/
theorem admittedHostNeverStopsBlock : Obligations.AdmittedHostNeverStopsBlock := by
  intro n
  induction n with
  | zero => exact fun s _ => ⟨s, rfl⟩
  | succ n ih =>
    intro s h
    obtain ⟨t, ht, hpending⟩ := step_next_of_admitted h
    obtain ⟨u, hu⟩ := ih t fun a ha => h a (List.mem_of_mem_tail (hpending ▸ ha))
    exact ⟨u, (run_succ_of_step ht n).trans hu⟩

end Sys2Proof.Machine
end

section
/-! Proofs: ANYERR is sticky, and who writes ERR (10_state.md R23; 60_exceptions.md R133). -/

namespace Sys2Proof.Machine

theorem State.writeLoc_status (s : State) (loc : Loc) (v : Word) :
    (s.writeLoc loc v).status = if loc = .status then statusHostWrite s.status v else s.status := by
  cases loc <;> rfl

/-- ANYERR after a command: set if it was, or if the command reports an error (60_exceptions.md R133). -/
theorem exec_anyErr {i : Instr} {s t : State} (h : exec i s = .next t) :
    anyErrOf t.status = (anyErrOf s.status || (errOf t.status != 0)) := by
  obtain ⟨u, hu, rfl⟩ | ⟨e, -, rfl⟩ := exec_next_iff.mp h
  · obtain ⟨-, hstatus, -⟩ := effect_keeps hu
    simp [hstatus]
  · rw [State.raise_status, anyErrOf_statusRaise, errOf_statusRaise, bne_iff_ne.mpr e.code_ne_zero, Bool.or_true]

/-- Only the reset input and a STATUS write with bit 8 set can clear ANYERR. -/
theorem AccessOf.anyErr {a : HostAccess} {s t : State} (h : AccessOf s a t) (hset : anyErrOf s.status = true)
    (hreset : a ≠ .reset) (hbit : ∀ v, a = .write .w32 0x004 v → v.getLsbD 8 = false) : anyErrOf t.status = true := by
  cases h with
  | reset => exact absurd rfl hreset
  | read loc => exact hset
  | @store loc hloc v =>
    rw [State.writeLoc_status]
    split
    · next hstatus =>
      subst hstatus
      rw [statusHostWrite_eq, hbit v rfl]
      exact hset
    · exact hset
  | done hu =>
    obtain ⟨-, hstatus, -⟩ := effect_keeps hu
    rw [State.done_status, anyErrOf_statusDone, hstatus]
    exact hset
  | raise c e => exact anyErrOf_statusRaise _ e

/-- Only the reset input and a CMD write, which runs a command, can change ERR. -/
theorem AccessOf.err {a : HostAccess} {s t : State} (h : AccessOf s a t) (hreset : a ≠ .reset)
    (hcmd : ∀ v, a ≠ .write .w32 0x000 v) : errOf t.status = errOf s.status := by
  cases h with
  | reset => exact absurd rfl hreset
  | read loc => rfl
  | store hloc v =>
    rw [State.writeLoc_status]
    split
    · exact errOf_statusHostWrite s.status v
    · rfl
  | done hu => exact absurd rfl (hcmd _)
  | raise c e => exact absurd rfl (hcmd c)

theorem statusHostWrite_clears_anyErr (st : Word) {v : Word} (h : v.getLsbD 8 = true) :
    anyErrOf (statusHostWrite st v) = false := by
  rw [statusHostWrite_eq, if_pos h, anyErrOf_eq, BitVec.getLsbD_and]
  exact Bool.and_false _

/-- Settles O35, sentence by sentence: a step by what its access does, a command by its two ends, a STATUS write by its
store. -/
theorem anyErrIsSticky : Obligations.AnyErrIsSticky := by
  refine ⟨fun s t h hset hreset hbit => ?_, fun i s t => exec_anyErr, fun s rest v h hv => ?_,
    fun s t h hreset hcmd => ?_⟩
  · obtain rfl | ⟨a, rest, hpending, haccess⟩ := step_next_cases h
    · exact hset
    · simp only [hpending, List.head?_cons, ne_eq, Option.some.injEq] at hreset hbit
      exact haccess.anyErr hset hreset hbit
  · exact ⟨_, step_write (loc := .status) h nofun, statusHostWrite_clears_anyErr s.status hv⟩
  · obtain rfl | ⟨a, rest, hpending, haccess⟩ := step_next_cases h
    · rfl
    · simp only [hpending, List.head?_cons, ne_eq, Option.some.injEq] at hreset hcmd
      exact haccess.err hreset hcmd

end Sys2Proof.Machine
end

section
/-! Proofs: the first error of an encoder and of a decoder (60_exceptions.md R134; 43_object_codec.md R108, R112). Every
check of the header reports FIELD_RANGE, so the order matters only between the header and the two payload checks. -/

namespace Sys2Proof.Machine

/-- The frame registers pass the checks of `encHeader` (43_object_codec.md R108). -/
structure HeaderLegal (kind : ObjKind) (s : State) : Prop where
  ide : s.frame.ide.toNat ≤ 1
  standard : s.frame.ide.toNat = 0 → s.frame.id.toNat < 2 ^ 11
  extended : s.frame.ide.toNat = 1 → s.frame.id.toNat < 2 ^ 29
  flags : s.frame.rtr.toNat ≤ 1 ∧ s.frame.brs.toNat ≤ 1 ∧ s.frame.fdf.toNat ≤ 1 ∧ s.frame.esi.toNat ≤ 1
  dlc : s.frame.dlc.toNat ≤ 15
  seq : kind ≠ .rx → s.frame.seq.toNat < 2 ^ seqTagWidth s.cfg
  filhit : kind = .rx → s.frame.filhit.toNat ≤ 31

/-- Legal registers give a header. It does not depend on F.LEN or on the class, so take an empty payload and the largest
class, which pass the payload checks. -/
theorem HeaderLegal.encHeader_ok {kind : ObjKind} {s : State} (h : HeaderLegal kind s) :
    ∃ w0 w1, encHeader s.layout kind s.cfg s.frame = .ok (w0, w1) := by
  have hcode : encodeErrorCode kind 7 { s with frame := { s.frame with len := 0 } } = 0 :=
    encodeErrorCode_eq_zero_iff.mpr ⟨⟨h.ide, h.standard, h.extended⟩, h.flags, h.dlc, h.seq, h.filhit,
      fun _ => ⟨Nat.zero_le _, dlcLen_le _⟩⟩
  obtain ⟨w0, -, hok, -⟩ := encHeader_of_code_zero hcode
  exact ⟨w0, _, hok⟩

theorem headerLegal_of_encHeader_ok {kind : ObjKind} {s : State} {w0 w1 : Word}
    (h : encHeader s.layout kind s.cfg s.frame = .ok (w0, w1)) : HeaderLegal kind s := by
  obtain ⟨hide, hid, hflags, hdlc, tag, htag, -⟩ := encHeader_ok_iff.mp h
  rw [encTag_ok_iff, seqBits_eq_seqTagWidth] at htag
  have hid := idEncode_lt hid
  refine ⟨hide, fun hz => ?_, fun hone => ?_, hflags, hdlc, fun hk => ?_, fun hk => ?_⟩
  · rwa [idKindOf, if_pos (BitVec.eq_of_toNat_eq hz)] at hid
  · rwa [idKindOf, if_neg (fun hz => by simp [hz] at hone)] at hid
  · rw [if_neg hk] at htag
    exact htag.1
  · rw [if_pos hk] at htag
    exact htag.1

/-- A sequence of two parts fails when the first does, or the second after it. -/
theorem bind_eq_error {α β : Type} {x : Except Err α} {f : α → Except Err β} {e : Err} :
    (x >>= f) = .error e ↔ x = .error e ∨ ∃ a, x = .ok a ∧ f a = .error e := by
  cases x with
  | ok a => simp [ok_bind]
  | error e' => simp [error_bind]

theorem pure_ne_error {α : Type} {a : α} {e : Err} : (pure a : Except Err α) ≠ .error e := nofun

theorem eq_of_require_bind_pure_error {α : Type} {p : Prop} [Decidable p] {e e' : Err} {a : α}
    (h : (do require p e; return a) = Except.error e') : e' = e := by
  obtain h | ⟨_, -, h⟩ := bind_eq_error.mp h
  · exact (require_eq_error.mp h).2.symm
  · exact absurd h pure_ne_error

theorem idEncode_error {lay : ObjLayout} {id : Word} {x : IdKind} {e : Err} (h : idEncode lay id x = .error e) :
    e = .fieldRange := by
  cases x <;> exact eq_of_require_bind_pure_error h

theorem encTag_error {lay : ObjLayout} {cfg : Word} {f : Frame} {kind : ObjKind} {e : Err}
    (h : encTag lay cfg f kind = .error e) : e = .fieldRange := by
  cases kind <;> exact eq_of_require_bind_pure_error h

/-- Every check of the header reports the same error. -/
theorem encHeader_error {lay : ObjLayout} {kind : ObjKind} {cfg : Word} {f : Frame} {e : Err}
    (h : encHeader lay kind cfg f = .error e) : e = .fieldRange := by
  simp only [encHeader, bind_eq_error, require_eq_error, pure_ne_error, and_false, exists_false, or_false] at h
  obtain ⟨-, he⟩ | ⟨_, -, hid | ⟨_, -, ⟨-, he⟩ | ⟨_, -, ⟨-, he⟩ | ⟨_, -, htag⟩⟩⟩⟩ := h
  · exact he.symm
  · exact idEncode_error hid
  · exact he.symm
  · exact he.symm
  · exact encTag_error htag

/-- Illegal registers are code 3. -/
theorem encodeErrorCode_of_not_headerLegal {kind : ObjKind} {s : State} (h : ¬ HeaderLegal kind s) (pls : Fin 8) :
    encodeErrorCode kind pls s = 3 := by
  unfold encodeErrorCode
  by_contra hcode
  simp only at hcode
  iterate 7
    split at hcode
    · exact hcode rfl
  next hide hstd hext hflags hdlc hseq hfilhit =>
  exact h ⟨by omega, by omega, by omega, by omega, by omega, fun hk => Nat.lt_of_not_le fun hle => hseq ⟨hk, hle⟩,
    fun hk => Nat.le_of_not_lt fun hlt => hfilhit ⟨hk, hlt⟩⟩

theorem HeaderLegal.encodeErrorCode_eq {kind : ObjKind} {s : State} (h : HeaderLegal kind s) (pls : Fin 8) :
    encodeErrorCode kind pls s =
      if kind ≠ .tef ∧ dlcLen s.frame.dlc.toNat < s.frame.len.toNat then 5
      else if kind ≠ .tef ∧ plsLen pls < dlcLen s.frame.dlc.toNat then 6
      else 0 := by
  obtain ⟨hide, hstd, hext, hflags, hdlc, hseq, hfilhit⟩ := h
  unfold encodeErrorCode
  simp only
  rw [if_neg (by omega), if_neg (by omega), if_neg (by omega), if_neg (by omega), if_neg (by omega),
    if_neg fun h => Nat.not_le.mpr (hseq h.1) h.2, if_neg fun h => Nat.not_lt.mpr (hfilhit h.1) h.2]

theorem effect_encoder_header_error {kind : ObjKind} {s : State} {e : Err} (pls : Fin 8)
    (h : encHeader s.layout kind s.cfg s.frame = .error e) : effect (kind.encoder pls) s = .error e := by
  cases kind with
  | tx => simp only [ObjKind.encoder, effect, encTx, h, error_bind]
  | rx => simp only [ObjKind.encoder, effect, encRx, h, error_bind]
  | tef => simp only [ObjKind.encoder, effect, encTef, h, error_bind]

theorem effect_encoder_payload_error {kind : ObjKind} {pls : Fin 8} {s : State} {w0 w1 : Word} {e : Err}
    (henc : encHeader s.layout kind s.cfg s.frame = .ok (w0, w1)) (hk : kind ≠ .tef)
    (h : payloadCheck s.frame (plsLen pls) = .error e) : effect (kind.encoder pls) s = .error e := by
  cases kind with
  | tx => simp only [ObjKind.encoder, effect, encTx, henc, h, ok_bind, error_bind]
  | rx => simp only [ObjKind.encoder, effect, encRx, henc, h, ok_bind, error_bind]
  | tef => exact absurd rfl hk

/-- The first failed check of an encoder, in the order of 60_exceptions.md R134. -/
theorem effect_encoder_error {kind : ObjKind} {pls : Fin 8} {s : State} (hcode : encodeErrorCode kind pls s ≠ 0) :
    ∃ e, effect (kind.encoder pls) s = .error e ∧ e.code.toNat = encodeErrorCode kind pls s := by
  by_cases hlegal : HeaderLegal kind s
  · obtain ⟨w0, w1, henc⟩ := hlegal.encHeader_ok
    rw [hlegal.encodeErrorCode_eq] at hcode ⊢
    by_cases hlen : kind ≠ .tef ∧ dlcLen s.frame.dlc.toNat < s.frame.len.toNat
    · obtain ⟨hk, hlong⟩ := hlen
      refine ⟨.payloadLen, effect_encoder_payload_error henc hk ?_, by rw [if_pos ⟨hk, hlong⟩]; rfl⟩
      rw [payloadCheck, require_false _ (Nat.not_le.mpr hlong), error_bind]
    rw [if_neg hlen] at hcode ⊢
    by_cases hfit : kind ≠ .tef ∧ plsLen pls < dlcLen s.frame.dlc.toNat
    · obtain ⟨hk, hover⟩ := hfit
      refine ⟨.elementOverflow, effect_encoder_payload_error henc hk ?_, by rw [if_pos ⟨hk, hover⟩]; rfl⟩
      rw [payloadCheck, require_true _ (Nat.le_of_not_lt fun hlong => hlen ⟨hk, hlong⟩), ok_bind,
        require_false _ (Nat.not_le.mpr hover)]
    · exact absurd (if_neg hfit) hcode
  · refine ⟨.fieldRange, ?_, (encodeErrorCode_of_not_headerLegal hlegal pls).symm⟩
    cases henc : encHeader s.layout kind s.cfg s.frame with
    | ok w => exact absurd (headerLegal_of_encHeader_ok henc) hlegal
    | error e => exact effect_encoder_header_error pls (encHeader_error henc ▸ henc)

/-- Settles O31: the first failed check fails the effect, and the command ends with its code. -/
theorem encoderReportsFirstError : Obligations.EncoderReportsFirstError := by
  intro kind pls s hcode
  obtain ⟨e, heffect, hnat⟩ := effect_encoder_error hcode
  rw [exec_of_effect_error heffect, hnat]

/-- Settles O32: `decHeader_error` finds the first failed check of the header parse. -/
theorem decoderReportsFirstError : Obligations.DecoderReportsFirstError := fun _ _ => exec_decoder_of_code_ne_zero

end Sys2Proof.Machine
end

section
/-! Proofs: the reset input (70_reset_and_hazards.md R150). -/

namespace Sys2Proof.Machine

/-- With the reset input next, the step takes it from the port and resets the block. -/
theorem step_reset {s : State} {rest : List HostAccess} (h : s.pending = .reset :: rest) :
    step s = .next (State.resetBlock { s with pending := rest }) := by
  simp only [step, h, access]

/-- Settles O15: the step is `resetBlock`, which keeps the layout, the accesses after the reset and the replies. -/
theorem resetInputResetsBlock : Obligations.ResetInputResetsBlock := by
  intro s rest h
  rw [step_reset h, State.resetBlock]

end Sys2Proof.Machine
end

section
/-! Proofs: the step with no host access pending (00_scope.md R7; log entry 5). -/

namespace Sys2Proof.Machine

/-- With no access at the port, the step takes its idle branch. -/
theorem step_idle {s : State} (h : s.pending = []) : step s = .next s := by
  simp only [step, h]

/-- Settles O7: the idle branch of the step answers the state it was given. -/
theorem idleStepChangesNothing : Obligations.IdleStepChangesNothing := fun _ => step_idle

end Sys2Proof.Machine
end
